-- ==== Sys2Proof/Word.lean ====
section
/-! DEFINITION. The word types of B91C: bytes, command words, the bit queue and ROM digits (00_scope.md R6). -/

namespace Sys2Proof

/-- A byte, and so a character: an 8-bit unsigned value (R6). -/
abbrev Byte := BitVec 8

/-- A command word or a host register (30_encoding.md R70, 10_state.md R30, R31). -/
abbrev Word := BitVec 16

/-- The accumulator of one context, `ACC_WIDTH` = 32 bits (10_state.md R20). -/
abbrev Queue := BitVec 32

/-- A digit as a register or a ROM entry holds it, 7 bits; the legal ones are 0..90 (10_state.md R20, 20_memory.md R51). -/
abbrev Digit := BitVec 7

/-- The integer one two-character codeword carries, 14 bits (30_encoding.md R84). -/
abbrev PairValue := BitVec 14

end Sys2Proof
end

