-- ==== Sys2Proof/Syntax.lean ====
section
/-! DEFINITION. The six commands of B91C, one constructor per row of the opcode map (30_encoding.md R72). -/

namespace Sys2Proof

/-- A command with its operands: the context number k (R75) and, for ENC and DEC, the data byte (R76). -/
inductive Instr where
  /-- INIT_TABLES (40_tables.md R120). -/
  | initTables
  /-- NEW_STATE k (40_tables.md R121). -/
  | newState (k : Nat)
  /-- ENC k, x (41_encoder.md R131). -/
  | enc (k : Nat) (x : Byte)
  /-- ENC_END k (43_finalizers.md R171). -/
  | encEnd (k : Nat)
  /-- DEC k, c (42_decoder.md R152). -/
  | dec (k : Nat) (c : Byte)
  /-- DEC_END k (43_finalizers.md R176). -/
  | decEnd (k : Nat)
  deriving DecidableEq, Repr

end Sys2Proof
end

