-- ==== Sys2Proof/WellFormed.lean ====
section
/-! DEFINITION. Which commands can be written as a command word: the context number fits the 4-bit field `ctx`
(30_encoding.md R70, R75; the assembler rejects k > 15, R78). Whether the context EXISTS is no matter of form: that is the
BAD_CONTEXT check of 60_exceptions.md R194. -/

namespace Sys2Proof

/-- A context number that the field `ctx` can hold (R75). -/
def contextFits (k : Nat) : Bool := decide (k ≤ 15)

/-- The command has an encoding. -/
def Instr.wf : Instr → Bool
  | .initTables => true
  | .newState k => contextFits k
  | .enc k _ => contextFits k
  | .encEnd k => contextFits k
  | .dec k _ => contextFits k
  | .decEnd k => contextFits k

end Sys2Proof
end

