-- ==== Sys2Proof/Decode.lean ====
section
/-! DEFINITION. From command words to commands and back (30_encoding.md R70 to R76): the fields, the opcode map, the
decoder, total on words and rejecting by name, and the encoder. -/

namespace Sys2Proof

/-- Field `op`, bits 15:12 (R70). -/
def opField (w : Word) : BitVec 4 := w.extractLsb' 12 4

/-- Field `ctx`, bits 11:8, zero-extended to a context number (R70, R75). -/
def contextField (w : Word) : Nat := (w.extractLsb' 8 4).toNat

/-- Field `data`, bits 7:0 (R70, R76). -/
def dataField (w : Word) : Byte := w.extractLsb' 0 8

/-- One row of the opcode map (R72): a word is this command when its bits under `mask` are `pattern`. -/
structure OpcodeRow where
  mnemonic : String
  pattern : Word
  mask : Word
  deriving DecidableEq, Repr

/-- "A word w is command X when (w & mask_X) = match_X" (R72). -/
def OpcodeRow.accepts (r : OpcodeRow) (w : Word) : Bool := w &&& r.mask == r.pattern

def rowInitTables : OpcodeRow := { mnemonic := "INIT_TABLES", pattern := 0x1000, mask := 0xFFFF }
def rowNewState : OpcodeRow := { mnemonic := "NEW_STATE", pattern := 0x2000, mask := 0xF0FF }
def rowEnc : OpcodeRow := { mnemonic := "ENC", pattern := 0x3000, mask := 0xF000 }
def rowEncEnd : OpcodeRow := { mnemonic := "ENC_END", pattern := 0x4000, mask := 0xF0FF }
def rowDec : OpcodeRow := { mnemonic := "DEC", pattern := 0x5000, mask := 0xF000 }
def rowDecEnd : OpcodeRow := { mnemonic := "DEC_END", pattern := 0x6000, mask := 0xF0FF }

/-- The opcode map (R72). -/
def opcodeTable : List OpcodeRow :=
  [rowInitTables, rowNewState, rowEnc, rowEncEnd, rowDec, rowDecEnd]

/-- The row of the opcode map a command belongs to. -/
def Instr.row : Instr → OpcodeRow
  | .initTables => rowInitTables
  | .newState _ => rowNewState
  | .enc _ _ => rowEnc
  | .encEnd _ => rowEncEnd
  | .dec _ _ => rowDec
  | .decEnd _ => rowDecEnd

/-- Why a word spells no command (R73, R74). Either way it is illegal and raises ILLEGAL_COMMAND. -/
inductive Reject where
  /-- `op` is 0x0 or 0x7..0xF. -/
  | reservedOpcode
  /-- `op` is one of the six, and a must-be-zero field is not zero. -/
  | nonzeroMustBeZero
  deriving DecidableEq, Repr

/-- `op` is one of the six opcodes (R72). -/
def opcodeAssigned (w : Word) : Bool := decide (1 ≤ (opField w).toNat ∧ (opField w).toNat ≤ 6)

/-- The decoder: the command a word spells, or why it spells none. -/
def decode (w : Word) : Except Reject Instr :=
  if rowInitTables.accepts w then .ok .initTables
  else if rowNewState.accepts w then .ok (.newState (contextField w))
  else if rowEnc.accepts w then .ok (.enc (contextField w) (dataField w))
  else if rowEncEnd.accepts w then .ok (.encEnd (contextField w))
  else if rowDec.accepts w then .ok (.dec (contextField w) (dataField w))
  else if rowDecEnd.accepts w then .ok (.decEnd (contextField w))
  else if opcodeAssigned w then .error .nonzeroMustBeZero
  else .error .reservedOpcode

/-- A command word from its three fields (R70). -/
def packWord (op : BitVec 4) (k : Nat) (x : Byte) : Word :=
  (op.setWidth 16 <<< 12) ||| ((BitVec.ofNat 4 k).setWidth 16 <<< 8) ||| x.setWidth 16

/-- The encoder: the word of a command (R72). -/
def encode : Instr → Word
  | .initTables => packWord 1 0 0
  | .newState k => packWord 2 k 0
  | .enc k x => packWord 3 k x
  | .encEnd k => packWord 4 k 0
  | .dec k c => packWord 5 k c
  | .decEnd k => packWord 6 k 0

/-- The command the decoder reads from an opcode-table word of `nbits` bits; every command is one 16-bit word (R71), so
nothing longer is a command. -/
def decodeTableWord (nbits w : Nat) : Option Instr :=
  if nbits ≤ 16 then
    match decode (BitVec.ofNat 16 (w % 2 ^ nbits)) with
    | .ok i => some i
    | .error _ => none
  else none

end Sys2Proof
end

