-- ==== Sys2Proof/Config.lean ====
section
/-! DEFINITION. What one instance of B91C fixes (00_scope.md R5): the parameters, their defaults, and the free values the
spec leaves open (93_implementation_defined.md U1, U2). -/

namespace Sys2Proof

/-- `ACC_WIDTH`, the width of every `bit_queue` (R5); `Queue` is a `BitVec` of this width. -/
def Config.accWidth : Nat := 32

/-- The number of digits of the alphabet (R2). -/
def Config.base : Nat := 91

/-- Contents of `ENCODE_PAIR` where 40_tables.md R108 leaves them unspecified (93 U2): any value. Never read (R111). -/
opaque Config.unspecifiedEncodePair : PairValue → Word

/-- Contents of `DECODE_PAIR` where 40_tables.md R110 leaves them unspecified (93 U1): any value. Never read (R111). -/
opaque Config.unspecifiedDecodePair : Word → PairValue

/-- What `DIGIT_TO_CHAR` gives for an index outside its domain 0..90: any value. No reachable state reads it (R111).
DESIGN CHOICE (log 7). -/
opaque Config.unspecifiedChar : Nat → Byte

/-- The two open parameters of R5. -/
structure Params where
  /-- `ALPHABET`: entry d is the character of digit d. -/
  alphabet : List Byte
  /-- `NUM_CTX`: the number of contexts. -/
  numCtx : Nat
  deriving DecidableEq, Repr

/-- What R5 requires of the parameters: `ALPHABET` is an injective map from 0..90, `NUM_CTX` is in 1..16. -/
abbrev Params.ok (p : Params) : Prop :=
  p.alphabet.length = Config.base ∧ p.alphabet.Nodup ∧ 1 ≤ p.numCtx ∧ p.numCtx ≤ 16

/-- Digits 0..25, the letters A to Z (40_tables.md R103). -/
def Config.upperLetters : List Byte :=
  [0x41, 0x42, 0x43, 0x44, 0x45, 0x46, 0x47, 0x48, 0x49, 0x4A, 0x4B, 0x4C, 0x4D,
   0x4E, 0x4F, 0x50, 0x51, 0x52, 0x53, 0x54, 0x55, 0x56, 0x57, 0x58, 0x59, 0x5A]

/-- Digits 26..51, the letters a to z (R103). -/
def Config.lowerLetters : List Byte :=
  [0x61, 0x62, 0x63, 0x64, 0x65, 0x66, 0x67, 0x68, 0x69, 0x6A, 0x6B, 0x6C, 0x6D,
   0x6E, 0x6F, 0x70, 0x71, 0x72, 0x73, 0x74, 0x75, 0x76, 0x77, 0x78, 0x79, 0x7A]

/-- Digits 52..61, the decimal figures (R103). -/
def Config.figures : List Byte :=
  [0x30, 0x31, 0x32, 0x33, 0x34, 0x35, 0x36, 0x37, 0x38, 0x39]

/-- Digits 62..90, the punctuation, with the double quote last (R103). -/
def Config.punctuation : List Byte :=
  [0x21, 0x23, 0x24, 0x25, 0x26, 0x28, 0x29, 0x2A, 0x2B, 0x2C, 0x2E, 0x2F, 0x3A, 0x3B, 0x3C,
   0x3D, 0x3E, 0x3F, 0x40, 0x5B, 0x5D, 0x5E, 0x5F, 0x60, 0x7B, 0x7C, 0x7D, 0x7E, 0x22]

/-- The default `ALPHABET`, classic basE91 (R103). PRESUMED: the spec takes it from general knowledge (log 2). -/
def Config.classicAlphabet : List Byte :=
  Config.upperLetters ++ Config.lowerLetters ++ Config.figures ++ Config.punctuation

/-- The default parameters of R5: the classic alphabet and one context. -/
def Params.default : Params := { alphabet := Config.classicAlphabet, numCtx := 1 }

end Sys2Proof
end

