-- ==== Sys2Proof/Machine/State.lean ====
section
/-! DEFINITION. The state of B91C as plain data (10_state.md): the context file, STATUS and FAULT_CMD, with the instance's
alphabet and the host's side of the interface. -/

namespace Sys2Proof.Machine

/-- What kind of stream a context is in (R26). -/
inductive Role where
  | idle
  | encoding
  | decoding
  deriving DecidableEq, Repr

/-- The fault causes (60_exceptions.md R190). -/
inductive Cause where
  | illegalCommand
  | badContext
  | notReady
  | roleMisuse
  deriving DecidableEq, Repr

/-- One context, the Codec State of one stream (R20). -/
structure Ctx where
  /-- `bit_queue`: the bits not yet emitted, lowest first. -/
  bitQueue : Queue
  /-- `bit_count`: how many low bits of the queue are valid. -/
  bitCount : BitVec 5
  /-- `pending`: the first digit of an unfinished pair, `none` for the source's sentinel (R25). -/
  pending : Option Digit
  /-- `role`: the kind of stream (R26). -/
  role : Role
  deriving DecidableEq, Repr

/-- The idle context, "zeroed/sentinel state" (R27). -/
def Ctx.idle : Ctx := { bitQueue := 0, bitCount := 0, pending := none, role := .idle }

/-- What the host can do to the block, each between commands (00_scope.md R12). -/
inductive HostAction where
  /-- Present a command word (30_encoding.md R70). -/
  | command (w : Word)
  /-- Read the host register of this number (10_state.md R32). -/
  | readRegister (n : Nat)
  /-- Apply the block reset (70_reset_and_hazards.md R220). -/
  | reset
  deriving DecidableEq, Repr

/-- The state. `alphabet` and the number of contexts are the parameters of R5, fixed for one instance: no step changes them
(log 1). `host`, `response` and `readData` are the interface, not state of the spec (logs 3 and 4). -/
structure State where
  /-- Parameter `ALPHABET` (00_scope.md R5). -/
  alphabet : List Byte
  /-- The context file; its length is the parameter `NUM_CTX` (R20). -/
  ctxs : List Ctx
  /-- Host register 0, STATUS (R30). -/
  status : Word
  /-- Host register 1, FAULT_CMD (R31). -/
  faultCmd : Word
  /-- The host's actions still to come, the next one first. -/
  host : List HostAction
  /-- The response of the last command, in emission order (30_encoding.md R80). -/
  response : List Byte
  /-- The value the last host register read returned, if there was one (R32). -/
  readData : Option Word
  deriving DecidableEq, Repr

/-- Why the model stops. None of these is raised by a command: a command's own faults are NEXT states (R195). -/
inductive Fault where
  /-- Raised by the host port when the host names a register other than 0 and 1: "No other register is host-readable"
  (R32). Safe: the spec has no such read (log 6). -/
  | noSuchHostRegister (n : Nat)
  deriving DecidableEq, Repr

/-- Why the model gives an instruction no meaning. -/
inductive Refusal where
  /-- Raised by `exec` for an instruction that has no meaning yet; safe. No arm raises it: all six have theirs. -/
  | notModelled (mnemonic : String)
  deriving DecidableEq, Repr

/-- The instance's parameters (R5). -/
def State.params (s : State) : Params := { alphabet := s.alphabet, numCtx := s.ctxs.length }

/-- The block with parameters `p` right after reset (R35). -/
def State.resetWith (p : Params) : State where
  alphabet := p.alphabet
  ctxs := List.replicate p.numCtx Ctx.idle
  status := 0
  faultCmd := 0
  host := []
  response := []
  readData := none

/-- The block with the default parameters right after reset (R35, R5). -/
def State.reset : State := State.resetWith Params.default

end Sys2Proof.Machine
end

