-- ==== Sys2Proof/Machine/Flags.lean ====
section
/-! DEFINITION. The fields of STATUS (10_state.md R30), what sets them (R33), and the codes of roles and causes. -/

namespace Sys2Proof.Machine

/-- The 2-bit code of a role (R20); the value 3 never occurs. -/
def Role.code : Role → BitVec 2
  | .idle => 0
  | .encoding => 1
  | .decoding => 2

/-- The 3-bit code of a fault cause (60_exceptions.md R190). -/
def Cause.code : Cause → BitVec 3
  | .illegalCommand => 1
  | .badContext => 2
  | .notReady => 3
  | .roleMisuse => 4

/-- STATUS.READY, bit 0. -/
def statusReady (w : Word) : Bool := w.getLsbD 0

/-- STATUS.FAULTED, bit 1. -/
def statusFaulted (w : Word) : Bool := w.getLsbD 1

/-- STATUS.CAUSE, bits 4:2. -/
def statusCause (w : Word) : BitVec 3 := w.extractLsb' 2 3

/-- The reserved bits 15:5 of STATUS. -/
def statusReserved (w : Word) : BitVec 11 := w.extractLsb' 5 11

/-- `STATUS.READY <- 1` (40_tables.md R120). -/
def statusSetReady (w : Word) : Word := w ||| 0x0001

/-- `STATUS.FAULTED <- 1; STATUS.CAUSE <- cause` (60_exceptions.md R195): bits 4:1 are replaced, the rest kept. -/
def statusSetFault (c : Cause) (w : Word) : Word :=
  (w &&& 0xFFE1) ||| 0x0002 ||| (c.code.setWidth 16 <<< 2)

/-- The flag READY (R28): STATUS bit 0 is its one home. -/
def State.ready (s : State) : Bool := statusReady s.status

/-- The flag FAULTED (R33). -/
def State.faulted (s : State) : Bool := statusFaulted s.status

/-- The recorded fault cause code (R30). -/
def State.cause (s : State) : BitVec 3 := statusCause s.status

/-- `STATUS.READY <- 1`. -/
def State.setReady (s : State) : State := { s with status := statusSetReady s.status }

end Sys2Proof.Machine
end

