-- ==== Sys2Proof/Machine/Operands.lean ====
section
/-! DEFINITION. The operands of a command: the context it names (30_encoding.md R75), read and written in the context file,
and how an input value joins the bit queue (20_memory.md R53, R55). The data byte (R76) is taken unchanged. -/

namespace Sys2Proof.Machine

/-- Parameter `NUM_CTX` (00_scope.md R5): how many contexts the block holds. -/
def State.numCtx (s : State) : Nat := s.ctxs.length

/-- `ctx[k]` (00_scope.md R7). Every use is after the check k < NUM_CTX (60_exceptions.md R194). -/
def State.ctx (s : State) (k : Nat) : Ctx := s.ctxs.getD k Ctx.idle

/-- `ctx[k] <- c` (R7). -/
def State.setCtx (s : State) (k : Nat) (c : Ctx) : State := { s with ctxs := s.ctxs.set k c }

/-- The context number a command names; INIT_TABLES names none (R73, R75). -/
def contextOperand : Instr → Option Nat
  | .initTables => none
  | .newState k => some k
  | .enc k _ => some k
  | .encEnd k => some k
  | .dec k _ => some k
  | .decEnd k => some k

/-- The role that makes a command ROLE_MISUSE: the other direction's (60_exceptions.md R193, R194). -/
def opposedRole : Instr → Option Role
  | .initTables => none
  | .newState _ => none
  | .enc _ _ => some .decoding
  | .encEnd _ => some .decoding
  | .dec _ _ => some .encoding
  | .decEnd _ => some .encoding

/-- `bit_queue | (zext_32(v) << bit_count)`: a value placed just above the `n` bits already held (R53, R55). -/
def shiftIn {w : Nat} (q : Queue) (n : Nat) (v : BitVec w) : Queue := q ||| (v.setWidth 32 <<< n)

end Sys2Proof.Machine
end

