-- ==== Sys2Proof/Machine/Ops.lean ====
section
/-! DEFINITION. The operations all commands share: responding, the checks and their order (60_exceptions.md R194), fault
entry (R195), dropping (R196), the one way out of a fault, the block reset (70_reset_and_hazards.md R220), and the host
register port (10_state.md R32). -/

namespace Sys2Proof.Machine

/-- The outcome of a step of this machine. -/
abbrev Result := Host.Outcome State Fault Refusal

/-- The command's whole response is `out` (30_encoding.md R80). It replaces the last one: there is no output buffer (R235). -/
def State.respond (s : State) (out : List Byte) : State := { s with response := out }

/-- `raise Fault(cause)` for the command word `w` (R195). -/
def raiseFault (c : Cause) (w : Word) (s : State) : State :=
  { s with status := statusSetFault c s.status, faultCmd := w, response := [] }

/-- A command of a faulted block is dropped: no effect, empty response (R196). -/
def dropCommand (s : State) : State := s.respond []

/-- What the checks say of a command. -/
inductive Verdict where
  | drop
  | fault (c : Cause)
  | go
  deriving DecidableEq, Repr

/-- `check` for a word that matches a row, in the order of R194. -/
def check (i : Instr) (s : State) : Verdict :=
  if s.faulted then .drop
  else
    match contextOperand i with
    | none => .go
    | some k =>
      if s.numCtx ≤ k then .fault .badContext
      else if !s.ready then .fault .notReady
      else if opposedRole i = some (s.ctx k).role then .fault .roleMisuse
      else .go

/-- Run a command's effect after its checks (R194): dropped, faulted, or executed. -/
def guarded (i : Instr) (effect : State → State) (s : State) : Result :=
  match check i s with
  | .drop => .next (dropCommand s)
  | .fault c => .next (raiseFault c (encode i) s)
  | .go => .next (effect s)

/-- A word that matches no row: dropped by a faulted block, else ILLEGAL_COMMAND (R194, 30_encoding.md R74). -/
def rejectWord (w : Word) (s : State) : Result :=
  if s.faulted then .next (dropCommand s) else .next (raiseFault .illegalCommand w s)

/-- What a command does to its context: the fields it leaves and the bytes it emits. -/
structure CtxEffect where
  ctx : Ctx
  out : List Byte
  deriving DecidableEq, Repr

/-- Apply a context command to `ctx[k]`: nothing of any other context is read or written (10_state.md R21). -/
def onContext (k : Nat) (f : Ctx → CtxEffect) (s : State) : State :=
  (s.setCtx k (f (s.ctx k)).ctx).respond (f (s.ctx k)).out

/-- The block reset (R220, R35): everything but the parameters and the host's own plans. It is the only way out of a fault
(R196). -/
def blockReset (s : State) : State := { State.resetWith s.params with host := s.host }

/-- The host register read port: register 0 is STATUS, 1 is FAULT_CMD, and there is no other (R32). -/
def hostRegister (n : Nat) (s : State) : Option Word :=
  match n with
  | 0 => some s.status
  | 1 => some s.faultCmd
  | _ => none

/-- A host register read: no side effect, the value on the read port (R32). -/
def hostRead (n : Nat) (s : State) : Result :=
  match hostRegister n s with
  | some v => .next { s with readData := some v }
  | none => .fault (.noSuchHostRegister n)

end Sys2Proof.Machine
end

