-- ==== Sys2Proof/Machine/Rom.lean ====
section
/-! DEFINITION. The table ROM (40_tables.md): DIGIT_TO_CHAR, CHAR_TO_DIGIT, ENCODE_PAIR and DECODE_PAIR as functions of
ALPHABET, and the adaptive width of a pair value (30_encoding.md R83). -/

namespace Sys2Proof.Machine

/-- `DIGIT_TO_CHAR[d] = ALPHABET[d]` (R102); outside the domain 0..90 a free value (log 7). -/
def digitToChar (a : List Byte) (d : Nat) : Byte :=
  match a[d]? with
  | some c => c
  | none => Config.unspecifiedChar d

/-- `CHAR_TO_DIGIT[b]`, the inverse of DIGIT_TO_CHAR (R101, R104): the place of `b` in the alphabet. -/
def charToDigit (a : List Byte) (b : Byte) : Option Digit :=
  (a.idxOf? b).map (BitVec.ofNat 7)

/-- The value of a pair from its digits: `d0 + 91·d1` (30_encoding.md R82). -/
def pairValue (d0 d1 : Digit) : PairValue := d0.setWidth 14 + 91 * d1.setWidth 14

/-- The 16-bit word of two characters, the first in bits 7:0 (20_memory.md R56, R57). -/
def packChars (c0 c1 : Byte) : Word := c0.setWidth 16 ||| (c1.setWidth 16 <<< 8)

/-- `ENCODE_PAIR[v]` (R107); unspecified for v in 8281..16383 (R108). -/
def encodePair (a : List Byte) (v : PairValue) : Word :=
  if v.toNat ≤ 8280 then packChars (digitToChar a (v.toNat % 91)) (digitToChar a (v.toNat / 91))
  else Config.unspecifiedEncodePair v

/-- `DECODE_PAIR[code]` (R110); unspecified where a byte of the code is no alphabet character. -/
def decodePair (a : List Byte) (code : Word) : PairValue :=
  match charToDigit a (code.extractLsb' 0 8), charToDigit a (code.extractLsb' 8 8) with
  | some d0, some d1 => pairValue d0 d1
  | _, _ => Config.unspecifiedDecodePair code

/-- The number of input bits a pair value carries: 13 if its low 13 bits exceed 88, else 14 (R83). -/
def pairWidth (v : PairValue) : Nat := if (v &&& 8191).toNat > 88 then 13 else 14

/-- The two characters of a pair value, low digit first (20_memory.md R54). -/
def pairChars (a : List Byte) (v : PairValue) : List Byte :=
  [digitToChar a (v.toNat % 91), digitToChar a (v.toNat / 91)]

end Sys2Proof.Machine
end

