-- ==== Sys2Proof/Machine/Encoder.lean ====
section
/-! DEFINITION. The streaming encoder: ENC (41_encoder.md R131). -/

namespace Sys2Proof.Machine

/-- A bit queue with its count and the bytes emitted while it was drained. -/
structure Flow where
  queue : Queue
  count : Nat
  out : List Byte
  deriving DecidableEq, Repr

/-- The codeword at the low end of the queue (R131 step 2, R133): `q[12:0]` if that exceeds 88, else `q[13:0]`. -/
def takeCodeword (q : Queue) : PairValue :=
  if (q.extractLsb' 0 13).toNat > 88 then (q.extractLsb' 0 13).setWidth 14 else q.extractLsb' 0 14

/-- How many bits that codeword consumes: 13 or 14 (R131 step 2). -/
def takeWidth (q : Queue) : Nat := if (q.extractLsb' 0 13).toNat > 88 then 13 else 14

/-- The loop of R131: while more than 13 bits are held, emit a codeword, low digit first, and shift it out. Every pass
takes 13 bits or more, so `fuel` = the count is never used up. -/
def drainCodewords (a : List Byte) : Nat → Queue → Nat → Flow
  | 0, q, n => { queue := q, count := n, out := [] }
  | fuel + 1, q, n =>
    if n > 13 then
      let rest := drainCodewords a fuel (q >>> takeWidth q) (n - takeWidth q)
      { rest with out := pairChars a (takeCodeword q) ++ rest.out }
    else { queue := q, count := n, out := [] }

/-- What ENC does to its context (R131). -/
def encodeByte (a : List Byte) (x : Byte) (c : Ctx) : CtxEffect :=
  let n := c.bitCount.toNat + 8
  let flow := drainCodewords a n (shiftIn c.bitQueue c.bitCount.toNat x) n
  { ctx := { c with bitQueue := flow.queue, bitCount := BitVec.ofNat 5 flow.count, role := .encoding }
    out := flow.out }

/-- ENC k, x (R131). -/
def execEnc (k : Nat) (x : Byte) (s : State) : Result :=
  guarded (.enc k x) (onContext k (encodeByte s.alphabet x)) s

end Sys2Proof.Machine
end

