-- ==== Sys2Proof/Machine/Decoder.lean ====
section
/-! DEFINITION. The streaming decoder: DEC (42_decoder.md R152). -/

namespace Sys2Proof.Machine

/-- The loop of R152: while 8 bits or more are held, emit the low byte and shift it out. Every pass takes 8 bits, so
`fuel` = the count is never used up. -/
def drainBytes : Nat → Queue → Nat → Flow
  | 0, q, n => { queue := q, count := n, out := [] }
  | fuel + 1, q, n =>
    if 8 ≤ n then
      let rest := drainBytes fuel (q >>> 8) (n - 8)
      { rest with out := q.extractLsb' 0 8 :: rest.out }
    else { queue := q, count := n, out := [] }

/-- The second digit of a pair has arrived with value `v` (R152 steps 3 and 4). -/
def mergePair (v : PairValue) (c : Ctx) : CtxEffect :=
  let n := c.bitCount.toNat + pairWidth v
  let flow := drainBytes n (shiftIn c.bitQueue c.bitCount.toNat v) n
  { ctx := { bitQueue := flow.queue, bitCount := BitVec.ofNat 5 flow.count, pending := none, role := .decoding }
    out := flow.out }

/-- What DEC does to its context (R152): skip a byte outside the alphabet (R151), keep a first digit, or complete a pair.
The role becomes Decoding in each case. -/
def decodeChar (a : List Byte) (x : Byte) (c : Ctx) : CtxEffect :=
  match charToDigit a x with
  | none => { ctx := { c with role := .decoding }, out := [] }
  | some dig =>
    match c.pending with
    | none => { ctx := { c with pending := some dig, role := .decoding }, out := [] }
    | some first => mergePair (pairValue first dig) c

/-- DEC k, c (R152). -/
def execDec (k : Nat) (c : Byte) (s : State) : Result :=
  guarded (.dec k c) (onContext k (decodeChar s.alphabet c)) s

end Sys2Proof.Machine
end

