-- ==== Sys2Proof/Machine/Finalizers.lean ====
section
/-! DEFINITION. The finalizers: ENC_END and DEC_END (43_finalizers.md R171, R176). -/

namespace Sys2Proof.Machine

/-- The trailing characters of an encoding stream (R171): none when no bit is held, else the low digit's, and the high
digit's too exactly when `n > 7 or q > 90` (R172). -/
def trailingChars (a : List Byte) (q n : Nat) : List Byte :=
  if n > 0 then
    if n > 7 ∨ q > 90 then [digitToChar a (q % 91), digitToChar a (q / 91)]
    else [digitToChar a (q % 91)]
  else []

/-- What ENC_END does to its context (R171). -/
def finishEncoding (a : List Byte) (c : Ctx) : CtxEffect :=
  { ctx := Ctx.idle, out := trailingChars a c.bitQueue.toNat c.bitCount.toNat }

/-- ENC_END k (R171). -/
def execEncEnd (k : Nat) (s : State) : Result :=
  guarded (.encEnd k) (onContext k (finishEncoding s.alphabet)) s

/-- The trailing byte of a decoding stream (R176): the low byte of the queue with a pending digit merged in, whatever left
it pending (90_conflicts.md C4). -/
def trailingByte (c : Ctx) : List Byte :=
  match c.pending with
  | some d => [(shiftIn c.bitQueue c.bitCount.toNat d).extractLsb' 0 8]
  | none => []

/-- What DEC_END does to its context (R176). -/
def finishDecoding (c : Ctx) : CtxEffect := { ctx := Ctx.idle, out := trailingByte c }

/-- DEC_END k (R176). -/
def execDecEnd (k : Nat) (s : State) : Result :=
  guarded (.decEnd k) (onContext k finishDecoding) s

end Sys2Proof.Machine
end

