-- ==== Sys2Proof/Machine/Lifecycle.lean ====
section
/-! DEFINITION. The lifecycle commands INIT_TABLES and NEW_STATE (40_tables.md R120, R121). -/

namespace Sys2Proof.Machine

/-- INIT_TABLES (R120): READY <- 1, empty response. -/
def execInitTables (s : State) : Result :=
  guarded .initTables (fun s => s.setReady.respond []) s

/-- What NEW_STATE does to its context (R121). -/
def newContext (_ : Ctx) : CtxEffect := { ctx := Ctx.idle, out := [] }

/-- NEW_STATE k (R121): context k becomes Idle, whatever it held. -/
def execNewState (k : Nat) (s : State) : Result :=
  guarded (.newState k) (onContext k newContext) s

end Sys2Proof.Machine
end

