-- ==== Sys2Proof/Machine/Dispatch.lean ====
section
/-! DEFINITION. One arm per command (30_encoding.md R72). -/

namespace Sys2Proof.Machine

def exec (i : Instr) (s : State) : Host.Outcome State Fault Refusal :=
  match i with
  | .initTables => Sys2Proof.Machine.execInitTables s
  | .newState k => Sys2Proof.Machine.execNewState k s
  | .enc k x => Sys2Proof.Machine.execEnc k x s
  | .encEnd k => Sys2Proof.Machine.execEncEnd k s
  | .dec k c => Sys2Proof.Machine.execDec k c s
  | .decEnd k => Sys2Proof.Machine.execDecEnd k s

end Sys2Proof.Machine
end

