-- ==== Sys2Proof/Machine/Command.lean ====
section
/-! DEFINITION. One command word (30_encoding.md R70): the command it spells is executed, an illegal word is rejected
(R74). -/

namespace Sys2Proof.Machine

/-- Execute one command word: "either it is one of the six commands or a fault" (60_exceptions.md R191). -/
def runWord (w : Word) (s : State) : Host.Outcome State Fault Refusal :=
  match decode w with
  | .ok i => exec i s
  | .error _ => rejectWord w s

end Sys2Proof.Machine
end

