-- ==== Sys2Proof/Machine/Step.lean ====
section
/-! DEFINITION. One step: the block takes the host's next action (00_scope.md R12, 20_memory.md R62). There is no fetch and
no program counter (10_state.md R22): the command presented is the input of the step. -/

namespace Sys2Proof.Machine

/-- One step. With no action waiting the block waits and nothing changes (70_reset_and_hazards.md R220; log 5). -/
def step (s : State) : Host.Outcome State Fault Refusal :=
  match s.host with
  | [] => .next s
  | .command w :: rest => runWord w { s with host := rest }
  | .readRegister n :: rest => hostRead n { s with host := rest }
  | .reset :: rest => .next (blockReset { s with host := rest })

/-- `s` with an opcode-table word as the next command the host presents (log 3). -/
def State.withFetchWord (s : State) (nbits w : Nat) : State :=
  { s with host := .command (BitVec.ofNat 16 (w % 2 ^ nbits)) :: s.host }

end Sys2Proof.Machine
end

