-- ==== Sys2Proof/Machine/Assembler.lean ====
section
/-! DEFINITION. The assembler (30_encoding.md R78) with the pseudo-instructions ENCS and DECS (R79): from a line of text to
command words. It is no part of the block; characters are compared by code, and spacing is the model's choice (log 9). -/

namespace Sys2Proof.Machine

/-- A line, its operands as written and not yet checked. -/
inductive AsmLine where
  | initTables
  | newState (k : Nat)
  | enc (k x : Nat)
  | encEnd (k : Nat)
  | dec (k x : Nat)
  | decEnd (k : Nat)
  | encs (k : Nat) (bytes : List Byte)
  | decs (k : Nat) (bytes : List Byte)
  deriving DecidableEq, Repr

/-- The commands of a line. It "rejects k > 15 and x > 0xFF" (R78); ENCS and DECS give one command a byte (R79). -/
def AsmLine.expand : AsmLine → Option (List Instr)
  | .initTables => some [.initTables]
  | .newState k => if k ≤ 15 then some [.newState k] else none
  | .enc k x => if k ≤ 15 ∧ x ≤ 0xFF then some [.enc k (BitVec.ofNat 8 x)] else none
  | .encEnd k => if k ≤ 15 then some [.encEnd k] else none
  | .dec k x => if k ≤ 15 ∧ x ≤ 0xFF then some [.dec k (BitVec.ofNat 8 x)] else none
  | .decEnd k => if k ≤ 15 then some [.decEnd k] else none
  | .encs k bytes => if k ≤ 15 then some (bytes.map (Instr.enc k)) else none
  | .decs k bytes => if k ≤ 15 then some (bytes.map (Instr.dec k)) else none

/-- The command words of a line (R78: "encodes each line by rule R72"). -/
def AsmLine.assemble (l : AsmLine) : Option (List Word) := l.expand.map fun is => is.map encode

/-- A character of a mnemonic: a capital letter or the underscore. -/
def asmNameChar (c : Char) : Bool := (65 ≤ c.toNat && c.toNat ≤ 90) || c.toNat == 95

def asmSkipSpaces (cs : List Char) : List Char := cs.dropWhile fun c => c.toNat == 32

/-- The value of a decimal figure. -/
def asmFigure (c : Char) : Option Nat :=
  if 48 ≤ c.toNat ∧ c.toNat ≤ 57 then some (c.toNat - 48) else none

/-- The value of a hexadecimal figure. -/
def asmHexFigure (c : Char) : Option Nat :=
  if 48 ≤ c.toNat ∧ c.toNat ≤ 57 then some (c.toNat - 48)
  else if 65 ≤ c.toNat ∧ c.toNat ≤ 70 then some (c.toNat - 55)
  else if 97 ≤ c.toNat ∧ c.toNat ≤ 102 then some (c.toNat - 87)
  else none

/-- A number in base `b`: one figure or more. -/
def asmNumber (b : Nat) (figure : Char → Option Nat) (cs : List Char) : Option (Nat × List Char) :=
  let isFigure := fun c => (figure c).isSome
  if (cs.takeWhile isFigure).isEmpty then none
  else some ((cs.takeWhile isFigure).foldl (fun n c => b * n + (figure c).getD 0) 0, cs.dropWhile isFigure)

/-- A comma and the spaces about it. -/
def asmComma (cs : List Char) : Option (List Char) :=
  match asmSkipSpaces cs with
  | [] => none
  | c :: rest => if c.toNat = 44 then some (asmSkipSpaces rest) else none

/-- A byte operand: `0xHH`, or a character in single quotes (R78). -/
def asmByteOperand : List Char → Option (Nat × List Char)
  | a :: b :: rest =>
    if a.toNat = 48 ∧ b.toNat = 120 then asmNumber 16 asmHexFigure rest
    else
      match rest with
      | c :: rest' => if a.toNat = 39 ∧ c.toNat = 39 then some (b.toNat, rest') else none
      | [] => none
  | _ => none

/-- The inside of a string up to its closing quote, with the escapes of R79; `fuel` is the text's length. -/
def asmStringBody : Nat → List Char → Option (List Byte × List Char)
  | 0, _ => none
  | _ + 1, [] => none
  | fuel + 1, c :: cs =>
    if c.toNat = 34 then some ([], cs)
    else if c.toNat = 92 then
      match cs with
      | x :: h :: l :: rest =>
        match asmHexFigure h, asmHexFigure l with
        | some hi, some lo =>
          if x.toNat = 120 then
            (asmStringBody fuel rest).map fun r => (BitVec.ofNat 8 (16 * hi + lo) :: r.1, r.2)
          else none
        | _, _ => none
      | _ => none
    else if c.toNat ≤ 0xFF then (asmStringBody fuel cs).map fun r => (BitVec.ofNat 8 c.toNat :: r.1, r.2)
    else none

/-- A string operand in double quotes (R79). -/
def asmStringOperand (cs : List Char) : Option (List Byte × List Char) :=
  match cs with
  | [] => none
  | c :: rest => if c.toNat = 34 then asmStringBody (rest.length + 1) rest else none

/-- Nothing but spaces is left. -/
def asmEnd (l : AsmLine) (rest : List Char) : Option AsmLine :=
  if (asmSkipSpaces rest).isEmpty then some l else none

/-- The operand form `k`. -/
def asmContextForm (line : Nat → AsmLine) (cs : List Char) : Option AsmLine :=
  match asmNumber 10 asmFigure cs with
  | some (k, rest) => asmEnd (line k) rest
  | none => none

/-- The operand form `k, x`, with `operand` reading the second. -/
def asmPairForm {α : Type} (operand : List Char → Option (α × List Char)) (line : Nat → α → AsmLine)
    (cs : List Char) : Option AsmLine :=
  match asmNumber 10 asmFigure cs with
  | some (k, rest) =>
    match (asmComma rest).bind operand with
    | some (x, rest') => asmEnd (line k x) rest'
    | none => none
  | none => none

/-- Read a line: a mnemonic, then its operands separated by commas (R78, R79). -/
def asmParse (text : List Char) : Option AsmLine :=
  let name := text.takeWhile asmNameChar
  let rest := asmSkipSpaces (text.dropWhile asmNameChar)
  if name = "INIT_TABLES".toList then asmEnd .initTables rest
  else if name = "NEW_STATE".toList then asmContextForm .newState rest
  else if name = "ENC".toList then asmPairForm asmByteOperand .enc rest
  else if name = "ENC_END".toList then asmContextForm .encEnd rest
  else if name = "DEC".toList then asmPairForm asmByteOperand .dec rest
  else if name = "DEC_END".toList then asmContextForm .decEnd rest
  else if name = "ENCS".toList then asmPairForm asmStringOperand .encs rest
  else if name = "DECS".toList then asmPairForm asmStringOperand .decs rest
  else none

/-- Assemble one line of text into command words (R78, R79). -/
def asmLine (text : String) : Option (List Word) := (asmParse text.toList).bind AsmLine.assemble

end Sys2Proof.Machine
end

