-- ==== Sys2Proof/Machine/Stream.lean ====
section
/-! DEFINITION. What the host sees of many steps: it offers its actions one at a time, takes each response before the next
command (70_reset_and_hazards.md R235), and concatenates them (30_encoding.md R80). Streams (00_scope.md R11) and the
expansions ENCS and DECS (R79). -/

namespace Sys2Proof.Machine

/-- The host's actions in order, each with the bytes it got for it. -/
abbrev Transcript := List (HostAction × List Byte)

/-- `s` with `a` as the host's one action. -/
def State.offer (s : State) (a : HostAction) : State := { s with host := [a] }

/-- The bytes the host takes after its action: a command's response (R80). -/
def responseTo (a : HostAction) (t : State) : List Byte :=
  match a with
  | .command _ => t.response
  | .readRegister _ => []
  | .reset => []

/-- Carry out the host's actions one by one (20_memory.md R62); `none` if one of them stops the model. -/
def drive : List HostAction → State → Option (State × Transcript)
  | [], s => some (s, [])
  | a :: rest, s =>
    match step (s.offer a) with
    | .next t => (drive rest t).map fun r => (r.1, (a, responseTo a t) :: r.2)
    | .fault _ => none
    | .refused _ => none

/-- The concatenated responses (R80). -/
def output (tr : Transcript) : List Byte := tr.flatMap Prod.snd

/-- The action is a command addressed to context `k` (R75). INIT_TABLES and illegal words address none (R73, R74). -/
def addresses (k : Nat) : HostAction → Bool
  | .command w =>
    match decode w with
    | .ok i => contextOperand i == some k
    | .error _ => false
  | .readRegister _ => false
  | .reset => false

/-- The concatenated responses of the commands addressed to context `k`. -/
def outputOn (k : Nat) (tr : Transcript) : List Byte := output (tr.filter fun e => addresses k e.1)

/-- The host presents this command. -/
def present (i : Instr) : HostAction := .command (encode i)

/-- ENCS k, "s": one ENC for each byte, in order (R79). -/
def encs (k : Nat) (bs : List Byte) : List HostAction := bs.map fun b => present (.enc k b)

/-- DECS k, "s": one DEC for each byte, in order (R79). -/
def decs (k : Nat) (cs : List Byte) : List HostAction := cs.map fun c => present (.dec k c)

/-- A whole encoding stream on context `k` (00_scope.md R11, 70_reset_and_hazards.md R223). -/
def encodingStream (k : Nat) (bs : List Byte) : List HostAction := encs k bs ++ [present (.encEnd k)]

/-- A whole decoding stream on context `k`. -/
def decodingStream (k : Nat) (cs : List Byte) : List HostAction := decs k cs ++ [present (.decEnd k)]

end Sys2Proof.Machine
end

