-- ==== Sys2Proof/Machine/Run.lean ====
section
/-! DEFINITION. The run after a reset, the streams in it and how each of them ended, and when a run has ended well
(70_reset_and_hazards.md R237, 00_scope.md R11). A run is judged by what the host issued, not by the contexts alone: a context
is Idle after a stream that was finalized and after one that NEW_STATE dropped (40_tables.md R121). -/

namespace Sys2Proof.Machine

/-- The host carries out no block reset. -/
abbrev NoReset (acts : List HostAction) : Prop := ∀ a ∈ acts, a ≠ .reset

/-- `tr` and `t` are a run of the block with parameters `p`: what the host did after one reset, and the state it left (R237). -/
def IsRun (p : Params) (tr : Transcript) (t : State) : Prop :=
  ∃ acts, NoReset acts ∧ drive acts (State.resetWith p) = some (t, tr)

/-- The part of a transcript after its last block reset: the run in progress (R237). -/
def sinceReset (tr : Transcript) : Transcript := tr.rtakeWhile fun e => e.1 != .reset

/-- The command an action presents to context `k`, if it does so (30_encoding.md R75). -/
def commandTo (k : Nat) : HostAction → Option Instr
  | .command w =>
    match decode w with
    | .ok i => if contextOperand i = some k then some i else none
    | .error _ => none
  | .readRegister _ => none
  | .reset => none

/-- The commands addressed to context `k`, each with its response. -/
def commandsOn (k : Nat) (tr : Transcript) : List (Instr × List Byte) :=
  tr.filterMap fun e => (commandTo k e.1).map fun i => (i, e.2)

/-- How a stream stands at the end of a run. -/
inductive StreamEnd where
  /-- Its finalizer has returned its response: the output is complete (R237). A finalizer that faulted or was dropped counts
  too (log 16). -/
  | finalized
  /-- NEW_STATE dropped it in mid-stream: its tail is lost (40_tables.md R121, R233). One that faulted or was
  dropped counts too (log 16). -/
  | abandoned
  /-- The run ended before its finalizer. -/
  | unfinished
  deriving DecidableEq, Repr

/-- One stream of a run (00_scope.md R11). -/
structure StreamRecord where
  /-- Its commands: ENC or DEC each, and the finalizer last where there is one. -/
  commands : List Instr
  /-- Their responses, concatenated (30_encoding.md R80). -/
  output : List Byte
  ending : StreamEnd
  deriving DecidableEq, Repr

/-- The streams that commands on one context make, in order; `cmds` and `out` are those of the stream in progress. A stream
goes from a reset, a NEW_STATE or a finalizer up to and including the next finalizer (00_scope.md R11); NEW_STATE or the end of
the run where no command has come since makes none (log 15). DESIGN CHOICE (log 16): a command that faulted, or that a faulted
block dropped, is cut like one that was executed, so that such a finalizer gives `finalized` and such a NEW_STATE `abandoned`;
`EndsWell` does not rest on it, since FAULTED is then 1 to the end of the run. -/
def streamsFrom : List Instr → List Byte → List (Instr × List Byte) → List StreamRecord
  | cmds, out, [] => if cmds.isEmpty then [] else [{ commands := cmds, output := out, ending := .unfinished }]
  | cmds, out, (i, bytes) :: rest =>
    match i with
    | .initTables => streamsFrom cmds out rest
    | .newState _ =>
      if cmds.isEmpty then streamsFrom [] [] rest
      else { commands := cmds, output := out, ending := .abandoned } :: streamsFrom [] [] rest
    | .enc _ _ => streamsFrom (cmds ++ [i]) (out ++ bytes) rest
    | .dec _ _ => streamsFrom (cmds ++ [i]) (out ++ bytes) rest
    | .encEnd _ =>
      { commands := cmds ++ [i], output := out ++ bytes, ending := .finalized } :: streamsFrom [] [] rest
    | .decEnd _ =>
      { commands := cmds ++ [i], output := out ++ bytes, ending := .finalized } :: streamsFrom [] [] rest

/-- The streams of the run on context `k`, in order. -/
def streamsOn (k : Nat) (tr : Transcript) : List StreamRecord := streamsFrom [] [] (commandsOn k (sinceReset tr))

/-- How a claim names a stream of a run: its context, and its place among that context's streams, from 0 (log 15). -/
structure StreamName where
  context : Nat
  index : Nat
  deriving DecidableEq, Repr

/-- The stream of this name, where the run has one. -/
def streamNamed (n : StreamName) (tr : Transcript) : Option StreamRecord := (streamsOn n.context tr)[n.index]?

/-- The stream has been finalized, and so its output is complete (R237). In a run whose FAULTED is 1 this counts a finalizer
that faulted or was dropped (log 16). -/
def Finalized (tr : Transcript) (n : StreamName) : Prop :=
  (streamNamed n tr).map StreamRecord.ending = some .finalized

/-- A run has ended well for a claim about the streams `claimed`: each of them has been finalized, and FAULTED = 0 after the
last command (R237). Streams the claim does not speak of may be unfinished. -/
def EndsWell (claimed : List StreamName) (tr : Transcript) (t : State) : Prop :=
  (∀ n ∈ claimed, Finalized tr n) ∧ t.faulted = false

/-- Context `k` is not Idle, so a run that ends here has unflushed data for it (R237). -/
def State.unflushed (t : State) (k : Nat) : Prop := (t.ctx k).role ≠ .idle

end Sys2Proof.Machine
end

