-- ==== Sys2Proof/Safety.lean ====
section
/-! DEFINITION. What every reachable state satisfies, and when a command is accepted: the terms claims are stated in. A good end
of a run is in Machine/Run.lean. -/

namespace Sys2Proof.Machine

/-- A context as the spec lets it be between commands (10_state.md R20, R23 to R25, R27). -/
structure Ctx.Ok (c : Ctx) : Prop where
  /-- Bits at and above `bit_count` are 0 (R23). -/
  queueBelow : c.bitQueue.toNat < 2 ^ c.bitCount.toNat
  /-- An Idle context is all zero and None (R27). -/
  idleZero : c.role = .idle → c = Ctx.idle
  /-- An encoding context holds at most 13 bits (R24) and no digit (R25). -/
  encodingRange : c.role = .encoding → c.bitCount.toNat ≤ 13 ∧ c.pending = none
  /-- A decoding context holds at most 7 bits (R24). -/
  decodingRange : c.role = .decoding → c.bitCount.toNat ≤ 7
  /-- A pending digit is in 0..90 (R20). -/
  pendingDigit : ∀ d, c.pending = some d → d.toNat ≤ 90

/-- The host-visible registers as the spec lets them be (10_state.md R30, R31; 60_exceptions.md R190). -/
structure RegistersOk (s : State) : Prop where
  /-- Bits 15:5 of STATUS always read 0 (R30). -/
  reservedZero : statusReserved s.status = 0
  /-- CAUSE values 5 to 7 never occur (R30). -/
  causeLegal : s.cause.toNat ≤ 4
  /-- Without a fault, CAUSE is 0 (R30) and FAULT_CMD reads 0x0000 (R31). -/
  noFault : s.faulted = false → s.cause = 0 ∧ s.faultCmd = 0
  /-- With a fault, a cause is recorded (R190). -/
  someCause : s.faulted = true → 1 ≤ s.cause.toNat

/-- The invariant of the block. -/
structure State.Inv (s : State) : Prop where
  /-- The parameters are what 00_scope.md R5 requires. -/
  params : s.params.ok
  contexts : ∀ c ∈ s.ctxs, c.Ok
  registers : RegistersOk s
  /-- Until INIT_TABLES every context is Idle, as reset left it (60_exceptions.md R192). -/
  idleUntilReady : s.ready = false → ∀ c ∈ s.ctxs, c = Ctx.idle
  /-- A response has at most two bytes (30_encoding.md R80). -/
  responseShort : s.response.length ≤ 2

/-- What a context command needs to execute and not fault (60_exceptions.md R194), apart from the role check. -/
def State.accepts (s : State) (k : Nat) : Prop := s.faulted = false ∧ k < s.numCtx ∧ s.ready = true

end Sys2Proof.Machine
end

