-- ==== Sys2Proof/Certificates/Slice0/Obligations.lean ====
section
/-! DEFINITION. The statements about the model, from the numbered rules of the spec. Every one holds for every alphabet and
every number of contexts that 00_scope.md R5 allows, since both are read from the state. -/

open Sys2Proof Sys2Proof.Machine

namespace Sys2Proof.Claims

/-- `s` after a command on context `k` that left the context as `c` and emitted `out`: nothing else differs. -/
def After (s : State) (k : Nat) (c : Ctx) (out : List Byte) : State :=
  { s with ctxs := s.ctxs.set k c, response := out }

/-- A context from numbers: queue, count, pending digit and role. -/
def ctxOf (q n : Nat) (pending : Option Digit) (role : Role) : Ctx :=
  { bitQueue := BitVec.ofNat 32 q, bitCount := BitVec.ofNat 5 n, pending := pending, role := role }

/-- The first fault of 60_exceptions.md R194 that applies to a command on context `k` is the one taken, and a faulted block
drops the command. `opposed` is the role that makes the command ROLE_MISUSE. -/
def FaultsAsChecked (i : Instr) (k : Nat) (opposed : Option Role) (s : State) : Prop :=
  (s.faulted = true → exec i s = .next { s with response := [] }) ∧
  (s.faulted = false → s.numCtx ≤ k → exec i s = .next (raiseFault .badContext (encode i) s)) ∧
  (s.faulted = false → k < s.numCtx → s.ready = false → exec i s = .next (raiseFault .notReady (encode i) s)) ∧
  (s.accepts k → opposed = some (s.ctx k).role → exec i s = .next (raiseFault .roleMisuse (encode i) s))

/-- A byte of the alphabet. -/
def inAlphabet (a : List Byte) (b : Byte) : Bool := a.contains b

/-- The streams of a run on context `k` that have ended, finalized or abandoned. -/
def closedStreams (k : Nat) (tr : Transcript) : List StreamRecord :=
  (streamsOn k tr).filter fun r => r.ending != .unfinished

/-- Every register the host reads exists (10_state.md R32). -/
def ReadsExist (acts : List HostAction) : Prop := ∀ n, HostAction.readRegister n ∈ acts → n ≤ 1

end Sys2Proof.Claims

open Sys2Proof.Claims

/-! ### Encoding -/

/-- Decoding the word of a well-formed command gives the command back, whatever its operands (R70, R72, R73). -/
def Obligations.DecodeOfEncodeIsIdentity : Prop :=
  ∀ i : Instr, i.wf = true → decode (encode i) = .ok i

/-- A word that decodes is the word of the command it decodes to, and that command is well-formed: each command has one
spelling (R71, R73). -/
def Obligations.EncodeOfDecodeIsIdentity : Prop :=
  ∀ (w : Word) (i : Instr), decode w = .ok i → i.wf = true ∧ encode i = w

/-- The opcode map (R72): its six rows, what matching a row is, that at most one row matches a word, that the decoder gives
the command of the row that matches, and that a word matching no row is no command. -/
def Obligations.OpcodeMapDecidesEveryWord : Prop :=
  (opcodeTable.map fun r => (r.mnemonic, r.pattern, r.mask)) =
    [("INIT_TABLES", 0x1000, 0xFFFF), ("NEW_STATE", 0x2000, 0xF0FF), ("ENC", 0x3000, 0xF000),
     ("ENC_END", 0x4000, 0xF0FF), ("DEC", 0x5000, 0xF000), ("DEC_END", 0x6000, 0xF0FF)] ∧
  (∀ (r : OpcodeRow) (w : Word), r.accepts w = true ↔ w &&& r.mask = r.pattern) ∧
  (∀ w : Word, ∀ r ∈ opcodeTable, ∀ r' ∈ opcodeTable, r.accepts w = true → r'.accepts w = true → r = r') ∧
  (∀ (w : Word) (i : Instr), decode w = .ok i → i.row ∈ opcodeTable ∧ i.row.accepts w = true) ∧
  (∀ w : Word, ∀ r ∈ opcodeTable, r.accepts w = true → ∃ i, decode w = .ok i ∧ i.row = r) ∧
  (∀ w : Word, (∃ e, decode w = .error e) ↔ ∀ r ∈ opcodeTable, r.accepts w = false)

/-- Where the fields of a command word lie (R70) and how they become operands (R75, R76). -/
def Obligations.OperandsComeFromTheirFields : Prop :=
  ∀ (w : Word) (i : Instr), decode w = .ok i →
    w.toNat = 4096 * (opField w).toNat + 256 * contextField w + (dataField w).toNat ∧
    (∀ k, contextOperand i = some k → k = contextField w ∧ k ≤ 15) ∧
    (∀ k x, i = .enc k x → x = dataField w) ∧
    (∀ k c, i = .dec k c → c = dataField w)

/-- The illegal words are exactly those with a reserved opcode and those with a nonzero must-be-zero field (R73, R74). On a
block that is not faulted such a word raises ILLEGAL_COMMAND and has no other effect. -/
def Obligations.IllegalWordsAreExactlyTheseAndFault : Prop :=
  (∀ w : Word, (∃ e, decode w = .error e) ↔
    ((opField w = 0 ∨ 7 ≤ (opField w).toNat) ∨
     (opField w = 1 ∧ (contextField w ≠ 0 ∨ dataField w ≠ 0)) ∨
     ((opField w = 2 ∨ opField w = 4 ∨ opField w = 6) ∧ dataField w ≠ 0))) ∧
  (∀ (w : Word) (e : Reject) (rest : List HostAction) (s : State), decode w = .error e → s.faulted = false →
    s.host = .command w :: rest →
    step s = .next { s with
      host := rest, status := statusSetFault .illegalCommand s.status, faultCmd := w, response := [] })

/-- A few words written out from R72 decode to their commands (a sanity check). -/
def Obligations.SpelledWordsDecode : Prop :=
  decode 0b0001000000000000 = .ok .initTables ∧
  decode 0b0010000000000000 = .ok (.newState 0) ∧
  decode 0b0011000001110100 = .ok (.enc 0 0x74) ∧
  decode 0b0100111100000000 = .ok (.encEnd 15) ∧
  decode 0b0101000101000011 = .ok (.dec 1 0x43) ∧
  decode 0b0110000100000000 = .ok (.decEnd 1)

/-! ### The step -/

/-- A step runs the command the host presents: where the word decodes to `i`, it is `exec i` on the state with that action
taken away; the word the host of this row loads is run the same way. -/
def Obligations.StepRunsDecodedCommand : Prop :=
  (∀ (s : State) (w : Word) (rest : List HostAction) (i : Instr), s.host = .command w :: rest → decode w = .ok i →
    step s = exec i { s with host := rest }) ∧
  (∀ (s : State) (nbits w : Nat) (i : Instr), decodeTableWord nbits w = some i →
    step (s.withFetchWord nbits w) = exec i s)

/-- With no host action waiting, a step changes nothing (the model's choice, log 5). -/
def Obligations.BlockWaitsForTheHost : Prop :=
  ∀ s : State, s.host = [] → step s = .next s

/-- Every command completes, from every state, and the model's one stop is a host read of a register that does not exist
(R236; the stop is log 6). -/
def Obligations.EveryCommandCompletes : Prop :=
  (∀ (i : Instr) (s : State), ∃ t, exec i s = .next t) ∧
  (∀ s : State, (∃ t, step s = .next t) ∨
    ∃ n rest, s.host = .readRegister n :: rest ∧ 2 ≤ n ∧ step s = .fault (.noSuchHostRegister n))

/-- Actions queued in the state are carried out in order, each whole before the next (R62): running the queue is offering
the actions one at a time. -/
def Obligations.QueuedActionsRunInOrder : Prop :=
  ∀ (acts : List HostAction) (s t : State) (tr : Transcript), drive acts s = some (t, tr) →
    Host.Core.run Sys2Proof.core acts.length { s with host := acts } = .next { t with host := [] }

/-! ### The checks and the fault mechanism -/

/-- The checks of a presented word, in their order, and the first that applies is the one reported (R194). -/
def Obligations.ChecksAreTakenInOrder : Prop :=
  ∀ (s : State) (w : Word) (rest : List HostAction), s.host = .command w :: rest →
    let s0 : State := { s with host := rest }
    (s.faulted = true → step s = .next { s0 with response := [] }) ∧
    (s.faulted = false → (∀ i, decode w ≠ .ok i) → step s = .next (raiseFault .illegalCommand w s0)) ∧
    (s.faulted = false → ∀ i k, decode w = .ok i → contextOperand i = some k → s.numCtx ≤ k →
      step s = .next (raiseFault .badContext w s0)) ∧
    (s.faulted = false → ∀ i k, decode w = .ok i → contextOperand i = some k → k < s.numCtx → s.ready = false →
      step s = .next (raiseFault .notReady w s0)) ∧
    (∀ k, s.accepts k → (s.ctx k).role = .decoding →
      (∃ x, decode w = .ok (.enc k x)) ∨ decode w = .ok (.encEnd k) → step s = .next (raiseFault .roleMisuse w s0)) ∧
    (∀ k, s.accepts k → (s.ctx k).role = .encoding →
      (∃ c, decode w = .ok (.dec k c)) ∨ decode w = .ok (.decEnd k) → step s = .next (raiseFault .roleMisuse w s0)) ∧
    (s.faulted = false → decode w = .ok .initTables → ∃ t, step s = .next t ∧ t.faulted = false) ∧
    (∀ k, s.accepts k → decode w = .ok (.newState k) → ∃ t, step s = .next t ∧ t.faulted = false) ∧
    (∀ k, s.accepts k → (s.ctx k).role ≠ .decoding →
      (∃ x, decode w = .ok (.enc k x)) ∨ decode w = .ok (.encEnd k) → ∃ t, step s = .next t ∧ t.faulted = false) ∧
    (∀ k, s.accepts k → (s.ctx k).role ≠ .encoding →
      (∃ c, decode w = .ok (.dec k c)) ∨ decode w = .ok (.decEnd k) → ∃ t, step s = .next t ∧ t.faulted = false)

/-- Fault entry (R195): a step that faults an unfaulted block was a command; it sets FAULTED, records one of the four causes
(R190) and the command word, and leaves READY, the reserved bits, every context and the parameters as they were, with an
empty response. -/
def Obligations.FaultEntryIsPrecise : Prop :=
  ∀ s t : State, s.faulted = false → step s = .next t → t.faulted = true →
    ∃ w rest, s.host = .command w :: rest ∧
      (t.cause = 1 ∨ t.cause = 2 ∨ t.cause = 3 ∨ t.cause = 4) ∧ t.faultCmd = w ∧ t.response = [] ∧
      t.ready = s.ready ∧ statusReserved t.status = statusReserved s.status ∧
      t.ctxs = s.ctxs ∧ t.alphabet = s.alphabet ∧ t.readData = s.readData ∧ t.host = rest

/-- The four causes and their codes, which commands raise them, and that no other code is recorded (R190); ENC and DEC never
fault because of their data byte. -/
def Obligations.FaultCausesAndTheirCodes : Prop :=
  Cause.illegalCommand.code = 1 ∧ Cause.badContext.code = 2 ∧ Cause.notReady.code = 3 ∧ Cause.roleMisuse.code = 4 ∧
  (∀ (s t u : State) (k : Nat) (x y : Byte),
    (exec (.enc k x) s = .next t → exec (.enc k y) s = .next u → t.faulted = u.faulted) ∧
    (exec (.dec k x) s = .next t → exec (.dec k y) s = .next u → t.faulted = u.faulted)) ∧
  ∀ (s t : State) (w : Word) (rest : List HostAction), s.faulted = false → s.host = .command w :: rest →
    step s = .next t → t.faulted = true →
    t.faultCmd = w ∧ (t.cause = 1 ∨ t.cause = 2 ∨ t.cause = 3 ∨ t.cause = 4) ∧
    (t.cause = 1 ↔ ∀ i, decode w ≠ .ok i) ∧
    (t.cause = 2 → ∃ i k, decode w = .ok i ∧ contextOperand i = some k ∧ s.numCtx ≤ k) ∧
    (t.cause = 3 → ∃ i k, decode w = .ok i ∧ contextOperand i = some k ∧ s.ready = false) ∧
    (t.cause = 4 → ∃ k,
      ((∃ x, decode w = .ok (.enc k x)) ∨ decode w = .ok (.encEnd k)) ∧ (s.ctx k).role = .decoding ∨
      ((∃ c, decode w = .ok (.dec k c)) ∨ decode w = .ok (.decEnd k)) ∧ (s.ctx k).role = .encoding)

/-- A faulted block (R196): whatever the host presents short of a reset is carried out with no effect and an empty response,
INIT_TABLES included; STATUS and FAULT_CMD keep the first fault; register reads still return their registers; and the block
reset is what clears the fault. -/
def Obligations.FaultedBlockDropsEverything : Prop :=
  (∀ (acts : List HostAction) (s : State), s.faulted = true → NoReset acts → ReadsExist acts →
    ∃ t tr, drive acts s = some (t, tr) ∧ t.faulted = true ∧ t.status = s.status ∧ t.faultCmd = s.faultCmd ∧
      t.ctxs = s.ctxs ∧ t.alphabet = s.alphabet ∧ output tr = []) ∧
  (∀ (s : State) (rest : List HostAction), s.faulted = true →
    step { s with host := .readRegister 0 :: rest } = .next { s with host := rest, readData := some s.status } ∧
    step { s with host := .readRegister 1 :: rest } = .next { s with host := rest, readData := some s.faultCmd }) ∧
  (∀ (s : State) (rest : List HostAction), ∃ t, step { s with host := .reset :: rest } = .next t ∧ t.faulted = false)

/-- Until the tables are built every command but INIT_TABLES faults, NEW_STATE included (R192), and none has an effect on a
context. -/
def Obligations.CommandsBeforeInitTablesFault : Prop :=
  ∀ (i : Instr) (s : State), s.faulted = false → s.ready = false → i ≠ .initTables →
    ∃ t, exec i s = .next t ∧ t.faulted = true ∧ t.ready = false ∧ t.ctxs = s.ctxs ∧ t.response = [] ∧
      ∀ k, contextOperand i = some k → k < s.numCtx → t.cause = 3

/-- A direction change without a finalizer faults with ROLE_MISUSE; a context that is Idle accepts either direction
(R193). -/
def Obligations.DirectionChangeNeedsFinalizer : Prop :=
  ∀ (s : State) (k : Nat) (x : Byte), s.accepts k →
    ((s.ctx k).role = .encoding → ∀ i, i = .dec k x ∨ i = .decEnd k →
      ∃ t, exec i s = .next t ∧ t.faulted = true ∧ t.cause = 4 ∧ t.ctxs = s.ctxs) ∧
    ((s.ctx k).role = .decoding → ∀ i, i = .enc k x ∨ i = .encEnd k →
      ∃ t, exec i s = .next t ∧ t.faulted = true ∧ t.cause = 4 ∧ t.ctxs = s.ctxs) ∧
    ((s.ctx k).role = .idle → ∀ i, i = .enc k x ∨ i = .encEnd k ∨ i = .dec k x ∨ i = .decEnd k →
      ∃ t, exec i s = .next t ∧ t.faulted = false)

/-! ### The commands -/

/-- INIT_TABLES (R120): its one word, its effect, its frame, that it is idempotent, and that a faulted block drops it. -/
def Obligations.InitTablesSetsReady : Prop :=
  (∀ w : Word, decode w = .ok .initTables ↔ w = 0x1000) ∧
  (∀ s : State, s.faulted = true → exec .initTables s = .next { s with response := [] }) ∧
  (∀ s : State, s.faulted = false →
    ∃ t, exec .initTables s = .next t ∧ t.ready = true ∧ t.response = [] ∧
      t.faulted = false ∧ t.cause = s.cause ∧ statusReserved t.status = statusReserved s.status ∧
      t.faultCmd = s.faultCmd ∧ t.ctxs = s.ctxs ∧ t.alphabet = s.alphabet ∧ t.host = s.host ∧ t.readData = s.readData ∧
      (s.ready = true → t = { s with response := [] }))

/-- NEW_STATE k (R121): its word, its faults, and its effect in every role: context k becomes (0, 0, None, Idle), the
response is empty, and nothing else changes; an Idle context is left as it was. -/
def Obligations.NewStateMakesContextIdle : Prop :=
  ∀ (k : Nat) (s : State),
    (∀ w : Word, decode w = .ok (.newState k) ↔ k ≤ 15 ∧ w.toNat = 0x2000 + 256 * k) ∧
    FaultsAsChecked (.newState k) k none s ∧
    (s.accepts k → exec (.newState k) s = .next (After s k (ctxOf 0 0 none .idle) [])) ∧
    (s.Inv → s.accepts k → (s.ctx k).role = .idle → exec (.newState k) s = .next { s with response := [] })

/-- ENC k, x (R131), in plain arithmetic: the byte is added above the bits held; with 13 bits or fewer nothing is emitted;
with more, one codeword of 13 or 14 bits leaves as two characters, low digit first. Its word and its faults are stated too,
and nothing but context k and the response changes. -/
def Obligations.EncConsumesOneByte : Prop :=
  ∀ (k : Nat) (x : Byte) (s : State),
    (∀ w : Word, decode w = .ok (.enc k x) ↔ k ≤ 15 ∧ w.toNat = 0x3000 + 256 * k + x.toNat) ∧
    FaultsAsChecked (.enc k x) k (some .decoding) s ∧
    (s.Inv → s.accepts k → (s.ctx k).role ≠ .decoding →
      let n := (s.ctx k).bitCount.toNat + 8
      let q := (s.ctx k).bitQueue.toNat + x.toNat * 2 ^ (s.ctx k).bitCount.toNat
      let pair := fun v => [digitToChar s.alphabet (v % 91), digitToChar s.alphabet (v / 91)]
      exec (.enc k x) s = .next
        (if n ≤ 13 then After s k (ctxOf q n none .encoding) []
         else if q % 8192 > 88 then After s k (ctxOf (q / 8192) (n - 13) none .encoding) (pair (q % 8192))
         else After s k (ctxOf (q / 16384) (n - 14) none .encoding) (pair (q % 16384))))

/-- DEC k, c (R152), in plain arithmetic: a byte outside the alphabet is skipped, a first digit is kept, a second digit
completes a pair whose 13 or 14 bits join the queue and whose whole bytes leave. Its word and its faults are stated too, and
nothing but context k and the response changes. -/
def Obligations.DecConsumesOneCharacter : Prop :=
  ∀ (k : Nat) (x : Byte) (s : State),
    (∀ w : Word, decode w = .ok (.dec k x) ↔ k ≤ 15 ∧ w.toNat = 0x5000 + 256 * k + x.toNat) ∧
    FaultsAsChecked (.dec k x) k (some .encoding) s ∧
    (s.Inv → s.accepts k → (s.ctx k).role ≠ .encoding →
      let c := s.ctx k
      (charToDigit s.alphabet x = none →
        exec (.dec k x) s = .next (After s k { c with role := .decoding } [])) ∧
      (∀ d, charToDigit s.alphabet x = some d → c.pending = none →
        exec (.dec k x) s = .next (After s k { c with pending := some d, role := .decoding } [])) ∧
      (∀ d first, charToDigit s.alphabet x = some d → c.pending = some first →
        let v := first.toNat + 91 * d.toNat
        let n := c.bitCount.toNat + (if v % 8192 > 88 then 13 else 14)
        let q := c.bitQueue.toNat + v * 2 ^ c.bitCount.toNat
        exec (.dec k x) s = .next
          (if n < 16 then After s k (ctxOf (q / 256) (n - 8) none .decoding) [BitVec.ofNat 8 q]
           else After s k (ctxOf (q / 65536) (n - 16) none .decoding) [BitVec.ofNat 8 q, BitVec.ofNat 8 (q / 256)])))

/-- ENC_END k (R171) with the second-character condition exactly as R172 has it. -/
def Obligations.EncEndFlushesAndGoesIdle : Prop :=
  ∀ (k : Nat) (s : State),
    (∀ w : Word, decode w = .ok (.encEnd k) ↔ k ≤ 15 ∧ w.toNat = 0x4000 + 256 * k) ∧
    FaultsAsChecked (.encEnd k) k (some .decoding) s ∧
    (s.accepts k → (s.ctx k).role ≠ .decoding →
      let n := (s.ctx k).bitCount.toNat
      let q := (s.ctx k).bitQueue.toNat
      exec (.encEnd k) s = .next (After s k (ctxOf 0 0 none .idle)
        (if n = 0 then []
         else if n > 7 ∨ q > 90 then [digitToChar s.alphabet (q % 91), digitToChar s.alphabet (q / 91)]
         else [digitToChar s.alphabet (q % 91)])))

/-- DEC_END k (R176): the low byte of the queue with the pending digit above it, if a digit is pending; leftover bits are
dropped; the context becomes Idle. -/
def Obligations.DecEndFlushesAndGoesIdle : Prop :=
  ∀ (k : Nat) (s : State),
    (∀ w : Word, decode w = .ok (.decEnd k) ↔ k ≤ 15 ∧ w.toNat = 0x6000 + 256 * k) ∧
    FaultsAsChecked (.decEnd k) k (some .encoding) s ∧
    (s.accepts k → (s.ctx k).role ≠ .encoding →
      ((s.ctx k).pending = none → exec (.decEnd k) s = .next (After s k (ctxOf 0 0 none .idle) [])) ∧
      (s.Inv → ∀ d, (s.ctx k).pending = some d →
        exec (.decEnd k) s = .next (After s k (ctxOf 0 0 none .idle)
          [BitVec.ofNat 8 ((s.ctx k).bitQueue.toNat + d.toNat * 2 ^ (s.ctx k).bitCount.toNat)])))

/-- A finalizer on an Idle context emits nothing and leaves the context Idle, so a second one right after the first has no
effect (R177). -/
def Obligations.FinalizerOnIdleHasNoEffect : Prop :=
  ∀ (s : State) (k : Nat), s.Inv → s.accepts k → (s.ctx k).role = .idle →
    exec (.encEnd k) s = .next { s with response := [] } ∧ exec (.decEnd k) s = .next { s with response := [] }

/-- The lengths a response can have, command by command (R80). -/
def Obligations.ResponseLengths : Prop :=
  ∀ s t : State, s.Inv →
    (exec .initTables s = .next t → t.response.length = 0) ∧
    (∀ k, exec (.newState k) s = .next t → t.response.length = 0) ∧
    (∀ k x, exec (.enc k x) s = .next t → t.response.length = 0 ∨ t.response.length = 2) ∧
    (∀ k, exec (.encEnd k) s = .next t → t.response.length ≤ 2) ∧
    (∀ k c, exec (.dec k c) s = .next t → t.response.length ≤ 2) ∧
    (∀ k, exec (.decEnd k) s = .next t → t.response.length ≤ 1) ∧
    (∀ i, exec i s = .next t → t.faulted = true → t.response.length = 0)

/-- Every byte an encoding command emits is an alphabet character (R81). -/
def Obligations.EncodingEmitsAlphabetCharacters : Prop :=
  ∀ (s t : State) (i : Instr) (k : Nat), s.Inv → ((∃ x, i = .enc k x) ∨ i = .encEnd k) → exec i s = .next t →
    ∀ b ∈ t.response, b ∈ s.alphabet

/-! ### Contexts and frames -/

/-- Frame of the context commands (R21): whatever happens (executed, faulted or dropped), every other context, READY, the
parameters, the host's other actions and the read port are as before; where no fault is raised STATUS and FAULT_CMD are
too. -/
def Obligations.ContextCommandsTouchOnlyTheirContext : Prop :=
  ∀ (i : Instr) (k : Nat) (s t : State), contextOperand i = some k → exec i s = .next t →
    (∀ j, j ≠ k → t.ctxs[j]? = s.ctxs[j]?) ∧ t.numCtx = s.numCtx ∧ t.ready = s.ready ∧ t.alphabet = s.alphabet ∧
    t.host = s.host ∧ t.readData = s.readData ∧ (t.faulted = s.faulted → t.status = s.status ∧ t.faultCmd = s.faultCmd)

/-- A command reads no context but its own (R21): two states that agree on STATUS, FAULT_CMD, the alphabet, NUM_CTX and
context k agree after a command on k on STATUS, FAULT_CMD, context k and the response. -/
def Obligations.ContextCommandsReadOnlyTheirContext : Prop :=
  ∀ (i : Instr) (k : Nat) (s s' t t' : State), contextOperand i = some k →
    s.status = s'.status → s.faultCmd = s'.faultCmd → s.alphabet = s'.alphabet → s.numCtx = s'.numCtx →
    s.ctx k = s'.ctx k → exec i s = .next t → exec i s' = .next t' →
    t.status = t'.status ∧ t.faultCmd = t'.faultCmd ∧ t.ctx k = t'.ctx k ∧ t.response = t'.response

/-- The transitions of `role` (R26): ENC makes it Encoding, DEC Decoding even for a skipped character, the finalizers and
NEW_STATE Idle; ENC and ENC_END fault when it is Decoding, DEC and DEC_END when it is Encoding. -/
def Obligations.RoleFollowsTheCommand : Prop :=
  ∀ (s : State) (k : Nat) (x : Byte), s.accepts k →
    (∃ t, exec (.newState k) s = .next t ∧ (t.ctx k).role = .idle) ∧
    ((s.ctx k).role ≠ .decoding →
      (∃ t, exec (.enc k x) s = .next t ∧ (t.ctx k).role = .encoding) ∧
      (∃ t, exec (.encEnd k) s = .next t ∧ (t.ctx k).role = .idle)) ∧
    ((s.ctx k).role ≠ .encoding →
      (∃ t, exec (.dec k x) s = .next t ∧ (t.ctx k).role = .decoding) ∧
      (∃ t, exec (.decEnd k) s = .next t ∧ (t.ctx k).role = .idle)) ∧
    ((s.ctx k).role = .decoding →
      ∀ i, i = .enc k x ∨ i = .encEnd k → ∃ t, exec i s = .next t ∧ t.faulted = true ∧ t.cause = 4) ∧
    ((s.ctx k).role = .encoding →
      ∀ i, i = .dec k x ∨ i = .decEnd k → ∃ t, exec i s = .next t ∧ t.faulted = true ∧ t.cause = 4)

/-- `pending` is decoder-only (R25): a step that gives a context a new pending digit was a DEC on it; a step that takes one
away was a DEC, DEC_END or NEW_STATE on it, or the block reset; and an encoding or Idle context has none afterwards. -/
def Obligations.PendingIsDecoderOnly : Prop :=
  ∀ (s t : State) (j : Nat), s.Inv → step s = .next t → j < s.numCtx →
    ((∃ d, (t.ctx j).pending = some d ∧ (s.ctx j).pending ≠ some d) →
      ∃ c w rest, s.host = .command w :: rest ∧ decode w = .ok (.dec j c)) ∧
    ((s.ctx j).pending ≠ none → (t.ctx j).pending = none →
      (∃ rest, s.host = .reset :: rest) ∨
      ∃ w rest, s.host = .command w :: rest ∧
        ((∃ c, decode w = .ok (.dec j c)) ∨ decode w = .ok (.decEnd j) ∨ decode w = .ok (.newState j))) ∧
    ((t.ctx j).role ≠ .decoding → (t.ctx j).pending = none)

/-! ### Flags, registers and reset -/

/-- What sets and clears the two flags (R33): READY is set by INIT_TABLES and cleared only by reset, FAULTED is set by a
faulting command and cleared only by reset. -/
def Obligations.FlagsChangeOnlyAsStated : Prop :=
  ∀ s t : State, step s = .next t →
    (s.ready = false → t.ready = true → s.faulted = false ∧ ∃ rest, s.host = .command 0x1000 :: rest) ∧
    (s.ready = true → t.ready = false → ∃ rest, s.host = .reset :: rest) ∧
    (s.faulted = false → t.faulted = true → ∃ w rest, s.host = .command w :: rest ∧ t.faultCmd = w) ∧
    (s.faulted = true → t.faulted = false → ∃ rest, s.host = .reset :: rest)

/-- STATUS as one number (R30): READY + 2·FAULTED + 4·CAUSE, the reserved bits zero and CAUSE never 5 to 7. -/
def Obligations.StatusWordLayout : Prop :=
  ∀ s : State, s.Inv →
    s.status.toNat = s.ready.toNat + 2 * s.faulted.toNat + 4 * s.cause.toNat ∧ s.status.toNat < 32 ∧ s.cause.toNat ≤ 4 ∧
    (s.faulted = false → s.cause = 0 ∧ s.faultCmd = 0)

/-- The host register read port (R32): register 0 is STATUS, register 1 is FAULT_CMD, a read changes nothing but the value
on the port (log 4), and no other register exists, so that reading one stops the model (log 6). -/
def Obligations.HostReadReturnsRegister : Prop :=
  ∀ (s : State) (rest : List HostAction),
    step { s with host := .readRegister 0 :: rest } = .next { s with host := rest, readData := some s.status } ∧
    step { s with host := .readRegister 1 :: rest } = .next { s with host := rest, readData := some s.faultCmd } ∧
    ∀ n, 2 ≤ n → step { s with host := .readRegister n :: rest } = .fault (.noSuchHostRegister n)

/-- The block reset (R220, R35): from any state, every context Idle and zero, READY, STATUS and FAULT_CMD zero; the
parameters, and so the table contents, stay. -/
def Obligations.ResetSetsEveryPieceOfState : Prop :=
  (∀ (s : State) (rest : List HostAction), s.host = .reset :: rest →
    ∃ t, step s = .next t ∧ t.status = 0 ∧ t.ready = false ∧ t.faulted = false ∧ t.faultCmd = 0 ∧
      t.numCtx = s.numCtx ∧ t.alphabet = s.alphabet ∧
      ∀ k, k < s.numCtx → t.ctxs[k]? = some (ctxOf 0 0 none .idle)) ∧
  (∀ p : Params, (State.resetWith p).status = 0 ∧ (State.resetWith p).faultCmd = 0 ∧
    (State.resetWith p).params = p ∧ ∀ k, k < p.numCtx → (State.resetWith p).ctxs[k]? = some (ctxOf 0 0 none .idle))

/-! ### Invariants -/

/-- Every step keeps the block's invariant, from every state that has it. -/
def Obligations.StepKeepsInvariant : Prop :=
  ∀ s t : State, s.Inv → step s = .next t → t.Inv

/-- The invariant holds right after reset, for all parameters the spec allows; the default ones are among them. -/
def Obligations.ResetHasInvariant : Prop :=
  (∀ p : Params, p.ok → (State.resetWith p).Inv) ∧ State.reset.Inv

/-- The parameters are fixed for one instance of the block (R5): no step changes them. -/
def Obligations.StepKeepsParameters : Prop :=
  ∀ s t : State, step s = .next t → t.params = s.params

/-- After every step the bits at and above `bit_count` are zero and `bit_count` is in its role's range (R23, R24); an Idle
context is all zero (R27). -/
def Obligations.ContextRangesAfterEveryStep : Prop :=
  ∀ (s t : State) (k : Nat), s.Inv → step s = .next t → k < t.numCtx →
    (∀ b, (t.ctx k).bitCount.toNat ≤ b → (t.ctx k).bitQueue.getLsbD b = false) ∧
    ((t.ctx k).role = .encoding → (t.ctx k).bitCount.toNat ≤ 13 ∧ (t.ctx k).bitQueue.toNat < 2 ^ 13) ∧
    ((t.ctx k).role = .decoding → (t.ctx k).bitCount.toNat ≤ 7 ∧ (t.ctx k).bitQueue.toNat < 2 ^ 7) ∧
    ((t.ctx k).role = .idle → (t.ctx k).bitQueue = 0 ∧ (t.ctx k).bitCount = 0 ∧ (t.ctx k).pending = none)

/-- No value overflows its register (R60). -/
def Obligations.IntermediateValuesFit : Prop :=
  ∀ c : Ctx, c.Ok →
    (c.role ≠ .decoding → ∀ x : Byte,
      c.bitCount.toNat ≤ 13 ∧ c.bitQueue.toNat < 2 ^ 13 ∧
      (shiftIn c.bitQueue c.bitCount.toNat x).toNat = c.bitQueue.toNat + x.toNat * 2 ^ c.bitCount.toNat ∧
      (shiftIn c.bitQueue c.bitCount.toNat x).toNat < 2 ^ 21 ∧ c.bitCount.toNat + 8 ≤ 21 ∧
      c.bitQueue.toNat / 91 ≤ 90) ∧
    (c.role ≠ .encoding → ∀ d0 d1 : Digit, d0.toNat ≤ 90 → d1.toNat ≤ 90 →
      c.bitCount.toNat ≤ 7 ∧
      (pairValue d0 d1).toNat = d0.toNat + 91 * d1.toNat ∧ (pairValue d0 d1).toNat ≤ 8280 ∧
      (shiftIn c.bitQueue c.bitCount.toNat (pairValue d0 d1)).toNat < 2 ^ 21 ∧
      c.bitCount.toNat + pairWidth (pairValue d0 d1) ≤ 21 ∧
      (shiftIn c.bitQueue c.bitCount.toNat d0).toNat < 2 ^ 14)

/-- The encoder's loop runs at most once, exactly when more than 13 bits are held, and then leaves 8 bits or fewer (R132);
the decoder's loop runs once or twice for a completed pair and leaves 7 bits or fewer (R153). -/
def Obligations.LoopsAreBounded : Prop :=
  ∀ (a : List Byte) (c : Ctx), c.Ok →
    (c.role ≠ .decoding → ∀ x : Byte,
      c.bitCount.toNat + 8 ≤ 21 ∧
      (c.bitCount.toNat + 8 ≤ 13 → (encodeByte a x c).out = []) ∧
      (13 < c.bitCount.toNat + 8 → (encodeByte a x c).out.length = 2 ∧ (encodeByte a x c).ctx.bitCount.toNat ≤ 8)) ∧
    (c.role ≠ .encoding → ∀ v : PairValue,
      13 ≤ c.bitCount.toNat + pairWidth v ∧ c.bitCount.toNat + pairWidth v ≤ 21 ∧
      (c.bitCount.toNat + pairWidth v < 16 → (mergePair v c).out.length = 1) ∧
      (16 ≤ c.bitCount.toNat + pairWidth v → (mergePair v c).out.length = 2) ∧
      (mergePair v c).ctx.bitCount.toNat ≤ 7)

/-! ### The tables -/

/-- The alphabet is a bijection between the digits and its characters (R101), for every alphabet R5 allows. -/
def Obligations.AlphabetIsBijective : Prop :=
  ∀ p : Params, p.ok →
    (∀ d, d ≤ 90 → charToDigit p.alphabet (digitToChar p.alphabet d) = some (BitVec.ofNat 7 d)) ∧
    (∀ (b : Byte) (d : Digit),
      charToDigit p.alphabet b = some d ↔ d.toNat ≤ 90 ∧ digitToChar p.alphabet d.toNat = b) ∧
    (∀ b : Byte, charToDigit p.alphabet b = none ↔ ∀ d, d ≤ 90 → digitToChar p.alphabet d ≠ b)

/-- CHAR_TO_DIGIT for the default alphabet, range by range (R104). That alphabet is PRESUMED (log 2). -/
def Obligations.DefaultCharToDigitRanges : Prop :=
  ∀ b : Byte,
    let n := b.toNat
    let digit := charToDigit Params.default.alphabet b
    (n = 0x21 → digit = some 62) ∧ (n = 0x22 → digit = some 90) ∧
    (0x23 ≤ n ∧ n ≤ 0x26 → digit = some (BitVec.ofNat 7 (n - 0x23 + 63))) ∧
    (0x28 ≤ n ∧ n ≤ 0x2C → digit = some (BitVec.ofNat 7 (n - 0x28 + 67))) ∧
    (0x2E ≤ n ∧ n ≤ 0x2F → digit = some (BitVec.ofNat 7 (n - 0x2E + 72))) ∧
    (0x30 ≤ n ∧ n ≤ 0x39 → digit = some (BitVec.ofNat 7 (n - 0x30 + 52))) ∧
    (0x3A ≤ n ∧ n ≤ 0x40 → digit = some (BitVec.ofNat 7 (n - 0x3A + 74))) ∧
    (0x41 ≤ n ∧ n ≤ 0x5A → digit = some (BitVec.ofNat 7 (n - 0x41))) ∧
    (n = 0x5B → digit = some 81) ∧
    (0x5D ≤ n ∧ n ≤ 0x60 → digit = some (BitVec.ofNat 7 (n - 0x5D + 82))) ∧
    (0x61 ≤ n ∧ n ≤ 0x7A → digit = some (BitVec.ofNat 7 (n - 0x61 + 26))) ∧
    (0x7B ≤ n ∧ n ≤ 0x7E → digit = some (BitVec.ofNat 7 (n - 0x7B + 86))) ∧
    (n ≤ 0x20 ∨ n = 0x27 ∨ n = 0x2D ∨ n = 0x5C ∨ 0x7F ≤ n → digit = none)

/-- The defined contents of the pair tables (R107, R110) and their byte order (R56, R57). -/
def Obligations.PairTableContents : Prop :=
  ∀ a : List Byte,
    (∀ v : PairValue, v.toNat ≤ 8280 →
      (encodePair a v).extractLsb' 0 8 = digitToChar a (v.toNat % 91) ∧
      (encodePair a v).extractLsb' 8 8 = digitToChar a (v.toNat / 91)) ∧
    (∀ (c0 c1 : Byte) (d0 d1 : Digit), charToDigit a c0 = some d0 → charToDigit a c1 = some d1 →
      (packChars c0 c1).toNat = c0.toNat + 256 * c1.toNat ∧
      (decodePair a (packChars c0 c1)).toNat = d0.toNat + 91 * d1.toNat)

/-- The pair tables are inverse to each other on every pair value (R113). -/
def Obligations.PairTablesRoundTrip : Prop :=
  ∀ p : Params, p.ok → ∀ v : PairValue, v.toNat ≤ 8280 →
    decodePair p.alphabet (encodePair p.alphabet v) = v

/-- Through the tables or by arithmetic, the results are the same (R112, R134, R154): the characters of every codeword the
encoder takes are the two bytes of one ENCODE_PAIR entry, and the value the decoder forms is the DECODE_PAIR entry of the
two characters. -/
def Obligations.TablesAgreeWithArithmetic : Prop :=
  ∀ a : List Byte,
    (∀ q : Queue,
      pairChars a (takeCodeword q) =
        [(encodePair a (takeCodeword q)).extractLsb' 0 8, (encodePair a (takeCodeword q)).extractLsb' 8 8]) ∧
    (∀ (x c0 : Byte) (first dig : Digit) (c : Ctx), charToDigit a c0 = some first → charToDigit a x = some dig →
      c.pending = some first → decodeChar a x c = mergePair (decodePair a (packChars c0 x)) c)

/-- The adaptive width (R83, R84): the encoder takes 13 bits exactly for the values 89..8191 and 14 bits exactly for 0..88 and
8192..8280; it makes every pair value of 0..8280 and no other; every one of them is the value of two digits; and the decoder
reads back the width the encoder chose. -/
def Obligations.AdaptiveWidthAgrees : Prop :=
  (∀ q : Queue,
    (takeCodeword q).toNat ≤ 8280 ∧ takeWidth q = pairWidth (takeCodeword q) ∧
    (takeCodeword q).toNat = q.toNat % 2 ^ takeWidth q ∧
    (takeWidth q = 13 → 89 ≤ (takeCodeword q).toNat ∧ (takeCodeword q).toNat ≤ 8191) ∧
    (takeWidth q = 14 → (takeCodeword q).toNat ≤ 88 ∨ 8192 ≤ (takeCodeword q).toNat)) ∧
  (∀ v : PairValue, v.toNat ≤ 8280 → ∃ q : Queue, takeCodeword q = v) ∧
  (∀ v : PairValue, v.toNat ≤ 8280 → ∃ d0 d1 : Digit, d0.toNat ≤ 90 ∧ d1.toNat ≤ 90 ∧ pairValue d0 d1 = v) ∧
  (∀ v : PairValue, v.toNat ≤ 8280 → (pairWidth v = 13 ↔ 89 ≤ v.toNat ∧ v.toNat ≤ 8191))

/-- Bit order (R53): bit i of a value shifted in is bit `bit_count + i` of the queue, and the bits already held stay. -/
def Obligations.ShiftInIsLeastSignificantFirst : Prop :=
  ∀ (q : Queue) (n : Nat) (x : Byte), q.toNat < 2 ^ n → n ≤ 24 →
    (∀ b, b < n → (shiftIn q n x).getLsbD b = q.getLsbD b) ∧
    (∀ b, b < 8 → (shiftIn q n x).getLsbD (n + b) = x.getLsbD b) ∧
    (∀ b, n + 8 ≤ b → (shiftIn q n x).getLsbD b = false)

/-! ### Streams -/

/-- Contexts do not interfere (R63): as long as no command faults, the bytes emitted for context k and the context itself
depend only on the commands addressed to k, in their order, whatever other commands and register reads come between. -/
def Obligations.ContextOutputDependsOnItsCommands : Prop :=
  ∀ (acts acts' : List HostAction) (s t t' : State) (tr tr' : Transcript) (k : Nat),
    NoReset acts → NoReset acts' → acts.filter (addresses k) = acts'.filter (addresses k) →
    drive acts s = some (t, tr) → drive acts' s = some (t', tr') → t.faulted = false → t'.faulted = false →
    outputOn k tr = outputOn k tr' ∧ t.ctx k = t'.ctx k

/-- Streaming transparency (R67): from any two states in which the stream's context, the alphabet and the flags are the same,
the output of a stream is the same however its commands are interleaved with reads and with other contexts' commands. -/
def Obligations.StreamOutputDependsOnlyOnItsData : Prop :=
  ∀ (acts : List HostAction) (s s' t : State) (tr : Transcript) (k : Nat) (bs : List Byte) (stream : List HostAction),
    stream = encodingStream k bs ∨ stream = decodingStream k bs → k ≤ 15 → NoReset acts →
    acts.filter (addresses k) = stream → drive acts s = some (t, tr) → t.faulted = false →
    s'.accepts k → s'.ctx k = s.ctx k → s'.alphabet = s.alphabet →
    ∃ t' tr', drive stream s' = some (t', tr') ∧ t'.faulted = false ∧ output tr' = outputOn k tr

/-- Splitting a string among several ENCS or DECS changes nothing, and the empty string is no command (R79, R136). -/
def Obligations.ChunkingIsInvisible : Prop :=
  ∀ (k : Nat) (xs ys : List Byte) (s : State),
    (encs k xs).length = xs.length ∧ (decs k xs).length = xs.length ∧
    drive (encs k []) s = some (s, []) ∧ drive (decs k []) s = some (s, []) ∧
    (∀ acts acts', (acts, acts') = (encs k xs, encs k ys) ∨ (acts, acts') = (decs k xs, decs k ys) →
      drive (acts ++ acts') s = (drive acts s).bind fun r => (drive acts' r.1).map fun r' => (r'.1, r.2 ++ r'.2)) ∧
    encs k (xs ++ ys) = encs k xs ++ encs k ys ∧ decs k (xs ++ ys) = decs k xs ++ decs k ys

/-- A whole encoding stream on a context that is not decoding always runs to its end: no fault, only alphabet characters
come out, its context ends Idle and every other context is as before; whatever the host did before, the run has ended well
for that stream, though other contexts may hold unflushed data (R81, R135, R170, R237). The stream is named as the model
names streams (log 15). -/
def Obligations.EncodingStreamEndsWell : Prop :=
  ∀ (s : State) (k : Nat) (bs : List Byte), s.Inv → s.accepts k → (s.ctx k).role ≠ .decoding →
    ∃ t tr, drive (encodingStream k bs) s = some (t, tr) ∧ t.faulted = false ∧
      (∀ b ∈ output tr, b ∈ s.alphabet) ∧ t.ctx k = ctxOf 0 0 none .idle ∧
      (∀ j, j ≠ k → t.ctxs[j]? = s.ctxs[j]?) ∧
      (∀ before : Transcript, EndsWell [{ context := k, index := (closedStreams k before).length }] (before ++ tr) t) ∧
      ((∀ j, j ≠ k → j < s.numCtx → ¬ s.unflushed j) → ∀ c ∈ t.ctxs, c.role = .idle)

/-- Any sequence of bytes can be decoded (R156): no fault, and the context ends Idle with every other context as before; the
run has ended well for that stream (R170, R237), which is named as the model names streams (log 15). -/
def Obligations.AnyInputCanBeDecoded : Prop :=
  ∀ (s : State) (k : Nat) (cs : List Byte), s.Inv → s.accepts k → (s.ctx k).role ≠ .encoding →
    ∃ t tr, drive (decodingStream k cs) s = some (t, tr) ∧ t.faulted = false ∧ t.status = s.status ∧
      t.ctx k = ctxOf 0 0 none .idle ∧ (∀ j, j ≠ k → t.ctxs[j]? = s.ctxs[j]?) ∧
      ∀ before : Transcript, EndsWell [{ context := k, index := (closedStreams k before).length }] (before ++ tr) t

/-- Bytes outside the alphabet change nothing of what is decoded (R151): decoding with them or with them removed gives the
same output. -/
def Obligations.NoiseIsTolerated : Prop :=
  ∀ (s : State) (k : Nat) (cs : List Byte), s.Inv → s.accepts k → (s.ctx k).role ≠ .encoding →
    ∃ t tr t' tr', drive (decodingStream k cs) s = some (t, tr) ∧
      drive (decodingStream k (cs.filter (inAlphabet s.alphabet))) s = some (t', tr') ∧
      output tr = output tr' ∧ t.ctxs = t'.ctxs ∧ t.status = t'.status

/-- The inverse law (R155): for every byte sequence and every alphabet, encoding it on an Idle context k and decoding the
output on an Idle context j, with any bytes outside the alphabet inserted, gives the sequence back. -/
def Obligations.DecodingInvertsEncoding : Prop :=
  ∀ (s : State) (j k : Nat) (bs : List Byte), s.Inv → s.accepts k → s.accepts j →
    (s.ctx k).role = .idle → (s.ctx j).role = .idle →
    ∃ t tr, drive (encodingStream k bs) s = some (t, tr) ∧
      ∀ noisy : List Byte, noisy.filter (inAlphabet s.alphabet) = output tr →
        ∃ t' tr', drive (decodingStream j noisy) t = some (t', tr') ∧ t'.faulted = false ∧ output tr' = bs

/-! ### The assembler -/

/-- The assembler (R78, R79): every line with a context number of 15 or less and a byte of 0xFF or less is encoded by the
opcode map, ENCS and DECS byte by byte; a command with a larger operand is rejected; and every word it emits is a
command. -/
def Obligations.AssemblerEncodesLines : Prop :=
  AsmLine.initTables.assemble = some [encode .initTables] ∧
  (∀ k, k ≤ 15 →
    (AsmLine.newState k).assemble = some [encode (.newState k)] ∧
    (AsmLine.encEnd k).assemble = some [encode (.encEnd k)] ∧
    (AsmLine.decEnd k).assemble = some [encode (.decEnd k)] ∧
    (∀ x : Byte, (AsmLine.enc k x.toNat).assemble = some [encode (.enc k x)]) ∧
    (∀ x : Byte, (AsmLine.dec k x.toNat).assemble = some [encode (.dec k x)]) ∧
    (∀ bs, ((AsmLine.encs k bs).assemble.map fun ws => ws.map HostAction.command) = some (encs k bs)) ∧
    (∀ bs, ((AsmLine.decs k bs).assemble.map fun ws => ws.map HostAction.command) = some (decs k bs))) ∧
  (∀ k x, 15 < k →
    (AsmLine.newState k).assemble = none ∧ (AsmLine.encEnd k).assemble = none ∧ (AsmLine.decEnd k).assemble = none ∧
    (AsmLine.enc k x).assemble = none ∧ (AsmLine.dec k x).assemble = none) ∧
  (∀ k x, 0xFF < x → (AsmLine.enc k x).assemble = none ∧ (AsmLine.dec k x).assemble = none) ∧
  (∀ (l : AsmLine) (ws : List Word), l.assemble = some ws → ∀ w ∈ ws, ∃ i, decode w = .ok i ∧ i.wf = true)

/-! ### The end of a run -/

/-- How a run ends (R237), for every run after a reset and every choice of the streams a claim speaks of: it ends well exactly
when each of them has been finalized and FAULTED is 0; a faulted run ends well for none; a claim that speaks of a stream that
NEW_STATE dropped or that is unfinished has none; once a stream has been finalized or dropped, nothing the host does before the
next reset changes its output or how it ended; and in a run without a fault the contexts that are not Idle are exactly those whose
last stream is unfinished. How a run is cut into streams, that one dropped by NEW_STATE is a stream (R11, R121, R233), and how
streams are named is the model's reading (log 15); that a command without effect cuts too is its choice (log 16). -/
def Obligations.RunEndsWellWhenItsStreamsAreFinalized : Prop :=
  ∀ (p : Params) (tr : Transcript) (t : State), IsRun p tr t →
    (∀ claimed, EndsWell claimed tr t ↔
      (∀ n ∈ claimed, ∃ r, (streamsOn n.context tr)[n.index]? = some r ∧ r.ending = .finalized) ∧ t.faulted = false) ∧
    (t.faulted = true → ∀ claimed, ¬ EndsWell claimed tr t) ∧
    (∀ n r claimed, streamNamed n tr = some r → r.ending ≠ .finalized → n ∈ claimed → ¬ EndsWell claimed tr t) ∧
    (∀ n r, streamNamed n tr = some r → r.ending ≠ .unfinished →
      ∀ (acts : List HostAction) (u : State) (tr' : Transcript), NoReset acts → drive acts t = some (u, tr') →
        streamNamed n (tr ++ tr') = some r) ∧
    (t.faulted = false → ∀ k, k < p.numCtx →
      (t.unflushed k ↔ ∃ r, (streamsOn k tr).getLast? = some r ∧ r.ending = .unfinished))

/-- What the streams of a run on a context are (00_scope.md R11): cut after every finalizer and at every NEW_STATE, they hold
every other command on the context in order and all its output; a finalized one ends with its only finalizer, the others are
data commands alone; and only the last can be unfinished. The cuts are the model's reading (log 15), and commands that faulted or
were dropped are counted by its choice (log 16). -/
def Obligations.StreamsAreCutAtFinalizersAndNewState : Prop :=
  ∀ (p : Params) (tr : Transcript) (t : State) (k : Nat), IsRun p tr t →
    ((streamsOn k tr).flatMap StreamRecord.commands) =
      ((commandsOn k tr).map Prod.fst).filter (fun i => i != .newState k) ∧
    ((streamsOn k tr).flatMap StreamRecord.output) = outputOn k tr ∧
    (∀ r ∈ streamsOn k tr,
      (r.ending = .finalized → ∃ cmds i, r.commands = cmds ++ [i] ∧ (i = .encEnd k ∨ i = .decEnd k) ∧
        ∀ j ∈ cmds, ∃ x, j = .enc k x ∨ j = .dec k x) ∧
      (r.ending ≠ .finalized → r.commands ≠ [] ∧ ∀ j ∈ r.commands, ∃ x, j = .enc k x ∨ j = .dec k x)) ∧
    (∀ r ∈ (streamsOn k tr).dropLast, r.ending ≠ .unfinished)

/-- A stream that NEW_STATE drops in mid-stream is lost (R121, R233, R237): the context is Idle again, yet the run has not ended
well for a claim about that stream, and cannot come to, whatever the host does next in that run. That a dropped stream keeps
its place and name is the model's reading (log 15). -/
def Obligations.DroppedStreamNeverEndsWell : Prop :=
  ∀ (s : State) (k : Nat) (before : Transcript), k ≤ 15 → s.accepts k →
    (∃ r, (streamsOn k before).getLast? = some r ∧ r.ending = .unfinished) →
    ∃ u tr, drive [present (.newState k)] s = some (u, tr) ∧ u.faulted = false ∧ ¬ u.unflushed k ∧
      ∀ (acts : List HostAction) (t : State) (tr' : Transcript), NoReset acts → drive acts u = some (t, tr') →
        ∀ claimed, { context := k, index := (closedStreams k before).length } ∈ claimed →
          ¬ EndsWell claimed (before ++ tr ++ tr') t
end

