-- ==== Sys2Proof/Laws/Decode.lean ====
section
/-! SUPPORT. The fields of a packed command word, and the rows its opcode selects (30_encoding.md R70, R72). -/

namespace Sys2Proof

variable (op : BitVec 4) (k : Nat) (x : Byte)

@[simp] theorem opField_packWord : opField (packWord op k x) = op := by
  ext i hi
  interval_cases i <;> simp [opField, packWord]

@[simp] theorem dataField_packWord : dataField (packWord op k x) = x := by
  ext i hi
  interval_cases i <;> simp [dataField, packWord]

theorem contextField_packWord (h : k ≤ 15) : contextField (packWord op k x) = k := by
  have : (packWord op k x).extractLsb' 8 4 = BitVec.ofNat 4 k := by
    ext i hi
    interval_cases i <;> simp [packWord]
  rw [contextField, this, BitVec.toNat_ofNat, Nat.mod_eq_of_lt (by omega)]

/-- Every word is packed from its own fields. -/
theorem packWord_fields (w : Word) : packWord (opField w) (contextField w) (dataField w) = w := by
  have hk : BitVec.ofNat 4 (contextField w) = w.extractLsb' 8 4 := by simp only [contextField, BitVec.ofNat_toNat, BitVec.setWidth_eq]
  rw [packWord, hk]
  ext i hi
  interval_cases i <;> simp [opField, dataField]

end Sys2Proof
end

