-- ==== Sys2Proof/Laws/State.lean ====
section
/-! SUPPORT. One lemma per field of State and per update of it, so that no proof unfolds a record update. -/

namespace Sys2Proof.Machine

variable (s : State) (out : List Byte) (k : Nat) (c : Ctx) (w : Word) (cause : Cause) (p : Params) (a : HostAction)

@[simp] theorem respond_alphabet : (s.respond out).alphabet = s.alphabet := rfl
@[simp] theorem respond_ctxs : (s.respond out).ctxs = s.ctxs := rfl
@[simp] theorem respond_status : (s.respond out).status = s.status := rfl
@[simp] theorem respond_faultCmd : (s.respond out).faultCmd = s.faultCmd := rfl
@[simp] theorem respond_host : (s.respond out).host = s.host := rfl
@[simp] theorem respond_response : (s.respond out).response = out := rfl
@[simp] theorem respond_readData : (s.respond out).readData = s.readData := rfl
@[simp] theorem respond_ready : (s.respond out).ready = s.ready := rfl
@[simp] theorem respond_faulted : (s.respond out).faulted = s.faulted := rfl
@[simp] theorem respond_cause : (s.respond out).cause = s.cause := rfl
@[simp] theorem respond_numCtx : (s.respond out).numCtx = s.numCtx := rfl
@[simp] theorem respond_ctx : (s.respond out).ctx k = s.ctx k := rfl
@[simp] theorem respond_params : (s.respond out).params = s.params := rfl

@[simp] theorem setCtx_alphabet : (s.setCtx k c).alphabet = s.alphabet := rfl
@[simp] theorem setCtx_ctxs : (s.setCtx k c).ctxs = s.ctxs.set k c := rfl
@[simp] theorem setCtx_status : (s.setCtx k c).status = s.status := rfl
@[simp] theorem setCtx_faultCmd : (s.setCtx k c).faultCmd = s.faultCmd := rfl
@[simp] theorem setCtx_host : (s.setCtx k c).host = s.host := rfl
@[simp] theorem setCtx_response : (s.setCtx k c).response = s.response := rfl
@[simp] theorem setCtx_readData : (s.setCtx k c).readData = s.readData := rfl
@[simp] theorem setCtx_ready : (s.setCtx k c).ready = s.ready := rfl
@[simp] theorem setCtx_faulted : (s.setCtx k c).faulted = s.faulted := rfl
@[simp] theorem setCtx_cause : (s.setCtx k c).cause = s.cause := rfl
@[simp] theorem setCtx_numCtx : (s.setCtx k c).numCtx = s.numCtx := by simp [State.numCtx]
@[simp] theorem setCtx_params : (s.setCtx k c).params = s.params := by simp [State.params]

@[simp] theorem setReady_alphabet : s.setReady.alphabet = s.alphabet := rfl
@[simp] theorem setReady_ctxs : s.setReady.ctxs = s.ctxs := rfl
@[simp] theorem setReady_status : s.setReady.status = statusSetReady s.status := rfl
@[simp] theorem setReady_faultCmd : s.setReady.faultCmd = s.faultCmd := rfl
@[simp] theorem setReady_host : s.setReady.host = s.host := rfl
@[simp] theorem setReady_response : s.setReady.response = s.response := rfl
@[simp] theorem setReady_readData : s.setReady.readData = s.readData := rfl
@[simp] theorem setReady_numCtx : s.setReady.numCtx = s.numCtx := rfl
@[simp] theorem setReady_ctx : s.setReady.ctx k = s.ctx k := rfl
@[simp] theorem setReady_params : s.setReady.params = s.params := rfl

@[simp] theorem raiseFault_alphabet : (raiseFault cause w s).alphabet = s.alphabet := rfl
@[simp] theorem raiseFault_ctxs : (raiseFault cause w s).ctxs = s.ctxs := rfl
@[simp] theorem raiseFault_status : (raiseFault cause w s).status = statusSetFault cause s.status := rfl
@[simp] theorem raiseFault_faultCmd : (raiseFault cause w s).faultCmd = w := rfl
@[simp] theorem raiseFault_host : (raiseFault cause w s).host = s.host := rfl
@[simp] theorem raiseFault_response : (raiseFault cause w s).response = [] := rfl
@[simp] theorem raiseFault_readData : (raiseFault cause w s).readData = s.readData := rfl
@[simp] theorem raiseFault_numCtx : (raiseFault cause w s).numCtx = s.numCtx := rfl
@[simp] theorem raiseFault_ctx : (raiseFault cause w s).ctx k = s.ctx k := rfl
@[simp] theorem raiseFault_params : (raiseFault cause w s).params = s.params := rfl

@[simp] theorem dropCommand_eq : dropCommand s = s.respond [] := rfl

@[simp] theorem onContext_eq (f : Ctx → CtxEffect) :
    onContext k f s = (s.setCtx k (f (s.ctx k)).ctx).respond (f (s.ctx k)).out := rfl

@[simp] theorem blockReset_alphabet : (blockReset s).alphabet = s.alphabet := rfl
@[simp] theorem blockReset_ctxs : (blockReset s).ctxs = List.replicate s.numCtx Ctx.idle := rfl
@[simp] theorem blockReset_status : (blockReset s).status = 0 := rfl
@[simp] theorem blockReset_faultCmd : (blockReset s).faultCmd = 0 := rfl
@[simp] theorem blockReset_host : (blockReset s).host = s.host := rfl
@[simp] theorem blockReset_response : (blockReset s).response = [] := rfl
@[simp] theorem blockReset_readData : (blockReset s).readData = none := rfl
@[simp] theorem blockReset_params : (blockReset s).params = s.params := by
  simp [State.params, State.numCtx]

@[simp] theorem resetWith_alphabet : (State.resetWith p).alphabet = p.alphabet := rfl
@[simp] theorem resetWith_ctxs : (State.resetWith p).ctxs = List.replicate p.numCtx Ctx.idle := rfl
@[simp] theorem resetWith_status : (State.resetWith p).status = 0 := rfl
@[simp] theorem resetWith_faultCmd : (State.resetWith p).faultCmd = 0 := rfl
@[simp] theorem resetWith_host : (State.resetWith p).host = [] := rfl
@[simp] theorem resetWith_response : (State.resetWith p).response = [] := rfl
@[simp] theorem resetWith_params : (State.resetWith p).params = p := by simp [State.params]

@[simp] theorem offer_alphabet : (s.offer a).alphabet = s.alphabet := rfl
@[simp] theorem offer_ctxs : (s.offer a).ctxs = s.ctxs := rfl
@[simp] theorem offer_status : (s.offer a).status = s.status := rfl
@[simp] theorem offer_faultCmd : (s.offer a).faultCmd = s.faultCmd := rfl
@[simp] theorem offer_host : (s.offer a).host = [a] := rfl
@[simp] theorem offer_response : (s.offer a).response = s.response := rfl
@[simp] theorem offer_readData : (s.offer a).readData = s.readData := rfl

/-- Reading the context just written. -/
theorem setCtx_ctx_same (h : k < s.numCtx) : (s.setCtx k c).ctx k = c := by
  have h' : k < s.ctxs.length := h
  simp [State.ctx, State.setCtx, List.getD, h']

/-- Writing one context leaves every other context alone (10_state.md R21). -/
theorem setCtx_ctx_other {j : Nat} (h : j ≠ k) : (s.setCtx k c).ctx j = s.ctx j := by
  simp [State.ctx, State.setCtx, List.getD, List.getElem?_set_ne (Ne.symm h)]

/-- A context that exists is a member of the context file. -/
theorem ctx_mem (h : k < s.numCtx) : s.ctx k ∈ s.ctxs := by
  have h' : k < s.ctxs.length := h
  simp [State.ctx, List.getD, h']

end Sys2Proof.Machine
end

