-- ==== Sys2Proof/Laws/Flags.lean ====
section
/-! SUPPORT. What each update of STATUS does to each of its fields (10_state.md R30, R33). -/

namespace Sys2Proof.Machine

variable (c : Cause) (w : Word) (s : State) (cmd : Word)

@[simp] theorem statusSetReady_ready : statusReady (statusSetReady w) = true := by
  simp [statusReady, statusSetReady]

@[simp] theorem statusSetReady_faulted : statusFaulted (statusSetReady w) = statusFaulted w := by
  simp [statusFaulted, statusSetReady]

@[simp] theorem statusSetReady_cause : statusCause (statusSetReady w) = statusCause w := by
  ext i hi
  interval_cases i <;> simp [statusCause, statusSetReady]

@[simp] theorem statusSetReady_reserved : statusReserved (statusSetReady w) = statusReserved w := by
  ext i hi
  interval_cases i <;> simp [statusReserved, statusSetReady]

/-- Setting READY again changes nothing (40_tables.md R120). -/
theorem statusSetReady_of_ready (h : statusReady w = true) : statusSetReady w = w := by
  ext i hi
  interval_cases i <;> simp_all [statusReady, statusSetReady]

@[simp] theorem statusSetFault_ready : statusReady (statusSetFault c w) = statusReady w := by
  simp [statusReady, statusSetFault]

@[simp] theorem statusSetFault_faulted : statusFaulted (statusSetFault c w) = true := by
  simp [statusFaulted, statusSetFault]

@[simp] theorem statusSetFault_cause : statusCause (statusSetFault c w) = c.code := by
  ext i hi
  interval_cases i <;> simp [statusCause, statusSetFault]

@[simp] theorem statusSetFault_reserved : statusReserved (statusSetFault c w) = statusReserved w := by
  ext i hi
  interval_cases i <;> simp [statusReserved, statusSetFault]

@[simp] theorem setReady_ready : s.setReady.ready = true := statusSetReady_ready _
@[simp] theorem setReady_faulted : s.setReady.faulted = s.faulted := statusSetReady_faulted _
@[simp] theorem setReady_cause : s.setReady.cause = s.cause := statusSetReady_cause _
@[simp] theorem raiseFault_ready : (raiseFault c cmd s).ready = s.ready := statusSetFault_ready _ _
@[simp] theorem raiseFault_faulted : (raiseFault c cmd s).faulted = true := statusSetFault_faulted _ _
@[simp] theorem raiseFault_cause : (raiseFault c cmd s).cause = c.code := statusSetFault_cause _ _
@[simp] theorem blockReset_ready : (blockReset s).ready = false := by simp [State.ready, statusReady]
@[simp] theorem blockReset_faulted : (blockReset s).faulted = false := by
  simp [State.faulted, statusFaulted]
@[simp] theorem blockReset_cause : (blockReset s).cause = 0 := by simp [State.cause, statusCause]

end Sys2Proof.Machine
end

