-- ==== Sys2Proof/Laws/Ops.lean ====
section
/-! SUPPORT. What the shared operations can do, said once: the checks (60_exceptions.md R194), a guarded command, a rejected
word, a step. -/

namespace Sys2Proof.Machine

variable {i : Instr} {k : Nat} {s t : State} {f : State → State} {w : Word}

theorem check_faulted (h : s.faulted = true) : check i s = .drop := by simp [check, h]

/-- INIT_TABLES passes every check but the first. -/
theorem check_initTables (h : s.faulted = false) : check .initTables s = .go := by
  simp [check, h, contextOperand]

/-- The checks of a context command that is in order pass. -/
theorem check_go (hk : contextOperand i = some k) (h : s.accepts k)
    (hr : opposedRole i ≠ some (s.ctx k).role) : check i s = .go := by
  obtain ⟨hf, hn, hready⟩ := h
  simp [check, hk, hf, hready, hr, Nat.not_le.mpr hn]

/-- What it means that the checks of a context command passed. -/
theorem accepts_of_check_go (hk : contextOperand i = some k) (h : check i s = .go) :
    s.accepts k ∧ opposedRole i ≠ some (s.ctx k).role := by
  unfold check at h
  simp only [hk] at h
  split at h
  · cases h
  · rename_i hf
    split at h
    · cases h
    · rename_i hn
      split at h
      · cases h
      · rename_i hready
        split at h
        · cases h
        · rename_i hr
          exact ⟨⟨by simpa using hf, by omega, by simpa using hready⟩, hr⟩

/-- A context that does not exist. -/
theorem check_badContext (hk : contextOperand i = some k) (hf : s.faulted = false) (h : s.numCtx ≤ k) :
    check i s = .fault .badContext := by simp [check, hk, hf, h]

/-- The tables are not built. -/
theorem check_notReady (hk : contextOperand i = some k) (hf : s.faulted = false) (hn : k < s.numCtx)
    (h : s.ready = false) : check i s = .fault .notReady := by
  simp [check, hk, hf, h, Nat.not_le.mpr hn]

/-- The context is in a stream of the other direction. -/
theorem check_roleMisuse (hk : contextOperand i = some k) (h : s.accepts k)
    (hr : opposedRole i = some (s.ctx k).role) : check i s = .fault .roleMisuse := by
  obtain ⟨hf, hn, hready⟩ := h
  simp [check, hk, hf, hready, hr, Nat.not_le.mpr hn]

/-- Everything a guarded command can do. -/
theorem guarded_cases (h : guarded i f s = .next t) :
    (check i s = .drop ∧ t = s.respond []) ∨
    (∃ c, check i s = .fault c ∧ t = raiseFault c (encode i) s) ∨
    (check i s = .go ∧ t = f s) := by
  unfold guarded at h
  split at h <;> rename_i hc <;> injection h with h
  · exact .inl ⟨hc, h.symm⟩
  · exact .inr (.inl ⟨_, hc, h.symm⟩)
  · exact .inr (.inr ⟨hc, h.symm⟩)

theorem guarded_drop (h : check i s = .drop) : guarded i f s = .next (s.respond []) := by
  simp [guarded, h]

theorem guarded_fault {c : Cause} (h : check i s = .fault c) :
    guarded i f s = .next (raiseFault c (encode i) s) := by simp [guarded, h]

theorem guarded_go (h : check i s = .go) : guarded i f s = .next (f s) := by simp [guarded, h]

/-- Everything a rejected word can do (30_encoding.md R74). -/
theorem rejectWord_cases (h : rejectWord w s = .next t) :
    (s.faulted = true ∧ t = s.respond []) ∨
    (s.faulted = false ∧ t = raiseFault .illegalCommand w s) := by
  unfold rejectWord at h
  split at h <;> rename_i hf <;> injection h with h
  · exact .inl ⟨hf, h.symm⟩
  · exact .inr ⟨by simpa using hf, h.symm⟩

/-- Everything a host read can do (10_state.md R32). -/
theorem hostRead_cases {n : Nat} (h : hostRead n s = .next t) :
    ∃ v, hostRegister n s = some v ∧ t = { s with readData := some v } := by
  unfold hostRead at h
  split at h
  · rename_i v hv
    injection h with h
    exact ⟨v, hv, h.symm⟩
  · cases h

/-- Everything a step can do. -/
theorem step_cases (h : step s = .next t) :
    (s.host = [] ∧ t = s) ∨
    (∃ w rest, s.host = .command w :: rest ∧ runWord w { s with host := rest } = .next t) ∨
    (∃ n rest, s.host = .readRegister n :: rest ∧ hostRead n { s with host := rest } = .next t) ∨
    (∃ rest, s.host = .reset :: rest ∧ t = blockReset { s with host := rest }) := by
  unfold step at h
  split at h <;> rename_i hs
  · injection h with h
    exact .inl ⟨hs, h.symm⟩
  · exact .inr (.inl ⟨_, _, hs, h⟩)
  · exact .inr (.inr (.inl ⟨_, _, hs, h⟩))
  · injection h with h
    exact .inr (.inr (.inr ⟨_, hs, h.symm⟩))

/-- The effect a command has once its checks pass. -/
def effectOf (i : Instr) (s : State) : State :=
  match i with
  | .initTables => s.setReady.respond []
  | .newState k => onContext k newContext s
  | .enc k x => onContext k (encodeByte s.alphabet x) s
  | .encEnd k => onContext k (finishEncoding s.alphabet) s
  | .dec k c => onContext k (decodeChar s.alphabet c) s
  | .decEnd k => onContext k finishDecoding s

/-- Every command is its effect behind the shared checks. -/
theorem exec_eq_guarded (i : Instr) (s : State) : exec i s = guarded i (effectOf i) s := by
  cases i <;>
    simp only [exec, execInitTables, execNewState, execEnc, execEncEnd, execDec, execDecEnd, guarded, effectOf]

/-- Everything a command can do. -/
theorem exec_cases (h : exec i s = .next t) :
    (check i s = .drop ∧ t = s.respond []) ∨
    (∃ c, check i s = .fault c ∧ t = raiseFault c (encode i) s) ∨
    (check i s = .go ∧ t = effectOf i s) :=
  guarded_cases (exec_eq_guarded i s ▸ h)

theorem exec_go (h : check i s = .go) : exec i s = .next (effectOf i s) := by
  rw [exec_eq_guarded, guarded_go h]

theorem exec_fault {c : Cause} (h : check i s = .fault c) : exec i s = .next (raiseFault c (encode i) s) := by
  rw [exec_eq_guarded, guarded_fault h]

theorem exec_drop (h : check i s = .drop) : exec i s = .next (s.respond []) := by
  rw [exec_eq_guarded, guarded_drop h]

/-- The effect of a command leaves FAULTED as it was: only fault entry sets it (10_state.md R33). -/
@[simp] theorem effectOf_faulted : (effectOf i s).faulted = s.faulted := by cases i <;> simp [effectOf]

/-- Only fault entry writes FAULT_CMD (10_state.md R31). -/
@[simp] theorem effectOf_faultCmd : (effectOf i s).faultCmd = s.faultCmd := by cases i <;> simp [effectOf]

@[simp] theorem effectOf_alphabet : (effectOf i s).alphabet = s.alphabet := by cases i <;> simp [effectOf]
@[simp] theorem effectOf_host : (effectOf i s).host = s.host := by cases i <;> simp [effectOf]
@[simp] theorem effectOf_readData : (effectOf i s).readData = s.readData := by cases i <;> simp [effectOf]
@[simp] theorem effectOf_numCtx : (effectOf i s).numCtx = s.numCtx := by cases i <;> simp [effectOf]

/-- A context command leaves STATUS as it was. -/
theorem effectOf_status (hk : contextOperand i = some k) : (effectOf i s).status = s.status := by
  cases i <;> simp [contextOperand] at hk <;> simp [effectOf]

/-- A context command leaves every other context as it was (10_state.md R21). -/
theorem effectOf_other {j : Nat} (hk : contextOperand i = some k) (hj : j ≠ k) :
    (effectOf i s).ctxs[j]? = s.ctxs[j]? := by
  cases i <;> simp [contextOperand] at hk <;> subst hk <;> simp [effectOf] <;>
    exact List.getElem?_set_ne (Ne.symm hj)

/-- A step on a presented command. -/
theorem step_command {rest : List HostAction} (h : s.host = .command w :: rest) :
    step s = runWord w { s with host := rest } := by simp [step, h]

theorem runWord_ok (h : decode w = .ok i) : runWord w s = exec i s := by simp [runWord, h]

theorem runWord_error {e : Reject} (h : decode w = .error e) : runWord w s = rejectWord w s := by simp [runWord, h]

end Sys2Proof.Machine
end

