-- ==== Sys2Proof/Laws/Flow.lean ====
section
/-! SUPPORT. The bit queue in plain arithmetic: what shifting in, taking a codeword and the two loops compute
(41_encoder.md R131, R132; 42_decoder.md R152, R153). -/

namespace Sys2Proof.Machine

/-- A value placed above `n` held bits adds its multiple of 2^n (20_memory.md R53, R55). -/
theorem shiftIn_toNat {w n : Nat} {q : Queue} (v : BitVec w) (hq : q.toNat < 2 ^ n) (hw : n + w ≤ 32) :
    (shiftIn q n v).toNat = q.toNat + v.toNat * 2 ^ n := by
  have hv : v.toNat < 2 ^ w := v.isLt
  have hlt : v.toNat * 2 ^ n < 2 ^ 32 := calc
    v.toNat * 2 ^ n < 2 ^ w * 2 ^ n := Nat.mul_lt_mul_of_pos_right hv (by positivity)
    _ = 2 ^ (n + w) := by rw [← Nat.pow_add, Nat.add_comm]
    _ ≤ 2 ^ 32 := Nat.pow_le_pow_right (by omega) hw
  have hsmall : v.toNat < 2 ^ 32 := lt_of_lt_of_le hv (Nat.pow_le_pow_right (by omega) (by omega))
  have hv32 : v.toNat % 2 ^ 32 = v.toNat := Nat.mod_eq_of_lt hsmall
  have hsh : (v.setWidth 32 <<< n).toNat = v.toNat <<< n := by
    rw [BitVec.toNat_shiftLeft, BitVec.toNat_setWidth, hv32, Nat.shiftLeft_eq, Nat.mod_eq_of_lt hlt]
  rw [shiftIn, BitVec.toNat_or, hsh, Nat.or_comm, ← Nat.shiftLeft_add_eq_or_of_lt hq, Nat.shiftLeft_eq]
  omega

/-- Shifting a queue right divides it. -/
theorem shiftRight_toNat (q : Queue) (n : Nat) : (q >>> n).toNat = q.toNat / 2 ^ n := by
  rw [BitVec.toNat_ushiftRight, Nat.shiftRight_eq_div_pow]

theorem low13_toNat (q : Queue) : (q.extractLsb' 0 13).toNat = q.toNat % 8192 := by simp

/-- The codeword taken, as a number (R131 step 2). -/
theorem takeCodeword_toNat (q : Queue) :
    (takeCodeword q).toNat = if q.toNat % 8192 > 88 then q.toNat % 8192 else q.toNat % 16384 := by
  unfold takeCodeword
  rw [low13_toNat]
  split
  · rw [BitVec.toNat_setWidth, low13_toNat]
    omega
  · simp

theorem takeWidth_eq (q : Queue) : takeWidth q = if q.toNat % 8192 > 88 then 13 else 14 := by
  unfold takeWidth
  rw [low13_toNat]

/-- The width of a pair value, as a number (30_encoding.md R83). -/
theorem pairWidth_eq (v : PairValue) : pairWidth v = if v.toNat % 8192 > 88 then 13 else 14 := by
  have h : (v &&& 8191).toNat = v.toNat % 8192 := by
    rw [BitVec.toNat_and]
    exact Nat.and_two_pow_sub_one_eq_mod v.toNat 13
  rw [pairWidth, h]

/-- The value of a pair never wraps (30_encoding.md R82). -/
theorem pairValue_toNat (d0 d1 : Digit) : (pairValue d0 d1).toNat = d0.toNat + 91 * d1.toNat := by
  have h0 : d0.toNat < 2 ^ 7 := d0.isLt
  have h1 : d1.toNat < 2 ^ 7 := d1.isLt
  have h91 : (91 : PairValue).toNat = 91 := rfl
  simp only [pairValue, BitVec.toNat_add, BitVec.toNat_mul, BitVec.toNat_setWidth, h91]
  omega

/-- The encoder's loop does nothing to 13 bits or fewer. -/
theorem drainCodewords_done (a : List Byte) (fuel : Nat) (q : Queue) {n : Nat} (h : n ≤ 13) :
    drainCodewords a fuel q n = { queue := q, count := n, out := [] } := by
  cases fuel with
  | zero => rfl
  | succ f => rw [drainCodewords, if_neg (by omega)]

/-- The encoder's loop runs exactly once on 14 to 26 bits (R132). -/
theorem drainCodewords_once (a : List Byte) {fuel n : Nat} (q : Queue) (hf : 0 < fuel) (h : 13 < n) (hn : n ≤ 26) :
    drainCodewords a fuel q n =
      { queue := q >>> takeWidth q, count := n - takeWidth q, out := pairChars a (takeCodeword q) } := by
  have hw : 13 ≤ takeWidth q := by rw [takeWidth_eq]; split <;> omega
  obtain ⟨f, rfl⟩ : ∃ f, fuel = f + 1 := ⟨fuel - 1, by omega⟩
  rw [drainCodewords, if_pos h, drainCodewords_done a f _ (by omega : n - takeWidth q ≤ 13)]
  simp

/-- The decoder's loop does nothing to fewer than 8 bits. -/
theorem drainBytes_done (fuel : Nat) (q : Queue) {n : Nat} (h : n < 8) :
    drainBytes fuel q n = { queue := q, count := n, out := [] } := by
  cases fuel with
  | zero => rfl
  | succ f => rw [drainBytes, if_neg (by omega)]

/-- The decoder's loop takes one byte from 8 bits or more and goes on. -/
theorem drainBytes_more {fuel n : Nat} (q : Queue) (h : 8 ≤ n) :
    drainBytes (fuel + 1) q n =
      { drainBytes fuel (q >>> 8) (n - 8) with
        out := q.extractLsb' 0 8 :: (drainBytes fuel (q >>> 8) (n - 8)).out } := by
  rw [drainBytes, if_pos h]

/-- The decoder's loop runs once on 8 to 15 bits (R153). -/
theorem drainBytes_once {fuel n : Nat} (q : Queue) (hf : 0 < fuel) (h : 8 ≤ n) (hn : n < 16) :
    drainBytes fuel q n = { queue := q >>> 8, count := n - 8, out := [q.extractLsb' 0 8] } := by
  obtain ⟨f, rfl⟩ : ∃ f, fuel = f + 1 := ⟨fuel - 1, by omega⟩
  rw [drainBytes_more q h, drainBytes_done f _ (by omega : n - 8 < 8)]

/-- The decoder's loop runs twice on 16 to 23 bits (R153). -/
theorem drainBytes_twice {fuel n : Nat} (q : Queue) (hf : 1 < fuel) (h : 16 ≤ n) (hn : n < 24) :
    drainBytes fuel q n =
      { queue := q >>> 8 >>> 8, count := n - 8 - 8, out := [q.extractLsb' 0 8, (q >>> 8).extractLsb' 0 8] } := by
  obtain ⟨f, rfl⟩ : ∃ f, fuel = f + 1 := ⟨fuel - 1, by omega⟩
  rw [drainBytes_more q (by omega), drainBytes_once (q >>> 8) (by omega) (by omega) (by omega)]

/-- Inside its domain, DIGIT_TO_CHAR reads the alphabet (40_tables.md R102). -/
theorem digitToChar_of_lt {a : List Byte} {d : Nat} (h : d < a.length) : digitToChar a d = a[d] := by
  simp [digitToChar, h]

end Sys2Proof.Machine
end

