-- ==== Sys2Proof/Laws/PerInstr.lean ====
section
/-! SUPPORT. Facts stated once for each constructor of Instr: the word of a command matches its own row of the opcode map
(30_encoding.md R72). -/

namespace Sys2Proof.Laws.MatchesItsRow

/-- The word of the command matches the command's row. -/
def Statement (i : Instr) : Prop := i.wf = true → i.row.accepts (encode i) = true

theorem initTables : Statement .initTables := fun _ => by decide

/-- A word with data 0 matches the row of its opcode under the mask 0xF0FF. -/
theorem masked_zero_data (op : BitVec 4) (k : Nat) : packWord op k 0 &&& 0xF0FF = packWord op 0 0 := by
  have h : ∀ o k4 : BitVec 4,
      ((o.setWidth 16 <<< 12) ||| (k4.setWidth 16 <<< 8)) &&& (0xF0FF : Word) = o.setWidth 16 <<< 12 := by decide
  simpa [packWord] using h op (BitVec.ofNat 4 k)

/-- Any word matches the row of its opcode under the mask 0xF000. -/
theorem masked_opcode (op : BitVec 4) (k : Nat) (x : Byte) : packWord op k x &&& 0xF000 = packWord op 0 0 := by
  ext i hi
  interval_cases i <;> simp [packWord]

theorem newState (k : Nat) : Statement (.newState k) := fun _ => by
  show (packWord 2 k 0 &&& 0xF0FF == (0x2000 : Word)) = true
  rw [masked_zero_data]; decide

theorem enc (k : Nat) (x : Byte) : Statement (.enc k x) := fun _ => by
  show (packWord 3 k x &&& 0xF000 == (0x3000 : Word)) = true
  rw [masked_opcode]; decide

theorem encEnd (k : Nat) : Statement (.encEnd k) := fun _ => by
  show (packWord 4 k 0 &&& 0xF0FF == (0x4000 : Word)) = true
  rw [masked_zero_data]; decide

theorem dec (k : Nat) (c : Byte) : Statement (.dec k c) := fun _ => by
  show (packWord 5 k c &&& 0xF000 == (0x5000 : Word)) = true
  rw [masked_opcode]; decide

theorem decEnd (k : Nat) : Statement (.decEnd k) := fun _ => by
  show (packWord 6 k 0 &&& 0xF0FF == (0x6000 : Word)) = true
  rw [masked_zero_data]; decide

end Sys2Proof.Laws.MatchesItsRow
end

