-- ==== Sys2Proof/Laws/Run.lean ====
section
/-! SUPPORT. How a transcript is cut into streams, one lemma per command and per way to extend it (00_scope.md R11,
70_reset_and_hazards.md R237). -/

namespace Sys2Proof.Machine

variable {k : Nat} {cmds : List Instr} {out bytes : List Byte} {x : Byte} {rest : List (Instr × List Byte)}

@[simp] theorem streamsFrom_end_idle : streamsFrom [] out [] = [] := rfl

@[simp] theorem streamsFrom_end (h : cmds ≠ []) :
    streamsFrom cmds out [] = [{ commands := cmds, output := out, ending := .unfinished }] := by
  simp [streamsFrom, h]

@[simp] theorem streamsFrom_enc : streamsFrom cmds out ((.enc k x, bytes) :: rest) =
    streamsFrom (cmds ++ [.enc k x]) (out ++ bytes) rest := rfl

@[simp] theorem streamsFrom_dec : streamsFrom cmds out ((.dec k x, bytes) :: rest) =
    streamsFrom (cmds ++ [.dec k x]) (out ++ bytes) rest := rfl

@[simp] theorem streamsFrom_encEnd : streamsFrom cmds out ((.encEnd k, bytes) :: rest) =
    { commands := cmds ++ [.encEnd k], output := out ++ bytes, ending := .finalized } :: streamsFrom [] [] rest := rfl

@[simp] theorem streamsFrom_decEnd : streamsFrom cmds out ((.decEnd k, bytes) :: rest) =
    { commands := cmds ++ [.decEnd k], output := out ++ bytes, ending := .finalized } :: streamsFrom [] [] rest := rfl

@[simp] theorem streamsFrom_newState_idle : streamsFrom [] out ((.newState k, bytes) :: rest) = streamsFrom [] [] rest :=
  rfl

@[simp] theorem streamsFrom_newState (h : cmds ≠ []) : streamsFrom cmds out ((.newState k, bytes) :: rest) =
    { commands := cmds, output := out, ending := .abandoned } :: streamsFrom [] [] rest := by
  simp [streamsFrom, h]

@[simp] theorem streamsFrom_initTables : streamsFrom cmds out ((.initTables, bytes) :: rest) = streamsFrom cmds out rest :=
  rfl

/-- Everything commands can do to the streams before them: some have ended for good, and one may be in progress, with commands
and output of its own, from which whatever comes next goes on. -/
theorem streamsFrom_append (cmds : List Instr) (out : List Byte) (l : List (Instr × List Byte)) :
    ∃ ended cmds' out', (∀ r ∈ ended, r.ending ≠ .unfinished) ∧
      ∀ l', streamsFrom cmds out (l ++ l') = ended ++ streamsFrom cmds' out' l' := by
  induction l generalizing cmds out with
  | nil => exact ⟨[], cmds, out, by simp, fun _ => rfl⟩
  | cons e rest ih =>
    obtain ⟨i, bytes⟩ := e
    have close (r : StreamRecord) (hr : r.ending ≠ .unfinished) :
        ∃ ended cmds' out', (∀ r ∈ ended, r.ending ≠ .unfinished) ∧
          ∀ l', r :: streamsFrom [] [] (rest ++ l') = ended ++ streamsFrom cmds' out' l' := by
      obtain ⟨ended, cmds', out', he, hs⟩ := ih [] []
      exact ⟨r :: ended, cmds', out', by simpa [hr] using he, fun l' => by simp [hs]⟩
    cases i with
    | initTables => exact ih cmds out
    | enc k x => exact ih _ _
    | dec k x => exact ih _ _
    | encEnd k => exact close _ (by simp)
    | decEnd k => exact close _ (by simp)
    | newState k =>
      cases cmds with
      | nil => exact ih _ _
      | cons c cs => exact close { commands := c :: cs, output := out, ending := .abandoned } (by simp)

@[simp] theorem commandsOn_append (tr tr' : Transcript) :
    commandsOn k (tr ++ tr') = commandsOn k tr ++ commandsOn k tr' := by simp [commandsOn]

/-- What the host does without a reset belongs to the run in progress. -/
theorem sinceReset_append {tr tr' : Transcript} (h : ∀ e ∈ tr', e.1 ≠ .reset) :
    sinceReset (tr ++ tr') = sinceReset tr ++ tr' := by
  unfold sinceReset List.rtakeWhile
  rw [List.reverse_append, List.takeWhile_append_of_pos (by simpa using h), List.reverse_append, List.reverse_reverse]

/-- A transcript without a reset is one run. -/
theorem sinceReset_self {tr : Transcript} (h : ∀ e ∈ tr, e.1 ≠ .reset) : sinceReset tr = tr := by
  simpa [sinceReset] using sinceReset_append (tr := []) h

/-- A transcript lists the host's actions in order. -/
theorem drive_actions {acts : List HostAction} {s t : State} {tr : Transcript} (h : drive acts s = some (t, tr)) :
    tr.map Prod.fst = acts := by
  induction acts generalizing s t tr with
  | nil => simp only [drive, Option.some.injEq, Prod.mk.injEq] at h; simp [← h.2]
  | cons a rest ih =>
    simp only [drive] at h
    split at h
    · obtain ⟨⟨u, tr'⟩, hd, he⟩ := Option.map_eq_some_iff.mp h
      simp only [Prod.mk.injEq] at he
      simp [← he.2, ih hd]
    · cases h
    · cases h

/-- A run has no reset in its transcript. -/
theorem IsRun.noReset {p : Params} {tr : Transcript} {t : State} (h : IsRun p tr t) : ∀ e ∈ tr, e.1 ≠ .reset := by
  obtain ⟨acts, hn, hd⟩ := h
  intro e he
  exact hn e.1 (drive_actions hd ▸ List.mem_map_of_mem he)

end Sys2Proof.Machine
end

