-- ==== Sys2Proof/Laws/Safety.lean ====
section
/-! SUPPORT. The invariant of a written-out state by evaluation. -/

namespace Sys2Proof.Machine

/-- `Ctx.Ok` as a check. -/
def Ctx.okCheck (c : Ctx) : Bool :=
  decide (c.bitQueue.toNat < 2 ^ c.bitCount.toNat) &&
  (match c.role with
    | .idle => decide (c = Ctx.idle)
    | .encoding => decide (c.bitCount.toNat ≤ 13) && decide (c.pending = none)
    | .decoding => decide (c.bitCount.toNat ≤ 7)) &&
  c.pending.all fun d => decide (d.toNat ≤ 90)

theorem Ctx.ok_of_check {c : Ctx} (h : c.okCheck = true) : c.Ok := by
  simp only [Ctx.okCheck, Bool.and_eq_true, decide_eq_true_eq] at h
  obtain ⟨⟨hq, hr⟩, hp⟩ := h
  have pending : ∀ d, c.pending = some d → d.toNat ≤ 90 := by
    intro d hd
    simpa [hd] using hp
  cases hrole : c.role <;> rw [hrole] at hr <;> simp only [Bool.and_eq_true, decide_eq_true_eq] at hr
  · exact ⟨hq, fun _ => hr, by simp [hrole], by simp [hrole], pending⟩
  · exact ⟨hq, by simp [hrole], fun _ => hr, by simp [hrole], pending⟩
  · exact ⟨hq, by simp [hrole], by simp [hrole], fun _ => hr, pending⟩

/-- A READY block that is not faulted, with legal contexts and parameters, has the invariant. -/
theorem State.inv_of_checks {s : State} (hp : s.params.ok) (hc : s.ctxs.all Ctx.okCheck = true) (hs : s.status = 1)
    (hf : s.faultCmd = 0) (hr : s.response.length ≤ 2) : s.Inv where
  params := hp
  contexts := fun c h => Ctx.ok_of_check (List.all_eq_true.mp hc c h)
  registers := by
    constructor <;> simp [State.cause, State.faulted, statusReserved, statusCause, statusFaulted, hs, hf]
  idleUntilReady := by simp [State.ready, statusReady, hs]
  responseShort := hr

end Sys2Proof.Machine
end

