-- ==== Sys2Proof/Tests/Slice0.lean ====
section
/-! SUPPORT. The model's own tests: words and values from 95_test_vectors.md and from the encodings of 30_encoding.md R72, the
smoke tests of WellFormed, and for every obligation with hypotheses a state that meets them. -/

namespace Sys2Proof.Tests

open Sys2Proof.Machine Sys2Proof.Claims

/-! ### Helpers -/

/-- A READY block with the default alphabet and these contexts. -/
def block (ctxs : List Ctx) : State :=
  { State.reset with ctxs := ctxs, status := 1 }

def encCtx (q n : Nat) : Ctx := ctxOf q n none .encoding
def decCtx (q n : Nat) (pending : Option Digit) : Ctx := ctxOf q n pending .decoding

/-- The state after an outcome, if there is one. -/
def after : Result → Option State
  | .next t => some t
  | .fault _ => none
  | .refused _ => none

/-- What a command on context 0 leaves: the context and the response. -/
def onZero (i : Instr) (c : Ctx) : Option (Ctx × List Byte) :=
  (after (exec i (block [c]))).map fun t => (t.ctx 0, t.response)

/-- STATUS and FAULT_CMD after one command word. -/
def registersAfter (w : Word) (s : State) : Option (Word × Word) :=
  (after (step (s.offer (.command w)))).map fun t => (t.status, t.faultCmd)

/-! ### WellFormed refuses each ill-formed operand -/

theorem smoke_newState_context : (Instr.newState 16).wf = false := by decide
theorem smoke_enc_context : (Instr.enc 16 0).wf = false := by decide
theorem smoke_encEnd_context : (Instr.encEnd 16).wf = false := by decide
theorem smoke_dec_context : (Instr.dec 16 0).wf = false := by decide
theorem smoke_decEnd_context : (Instr.decEnd 16).wf = false := by decide

/-! ### Decoding: one word of each row, bit by bit from R72, and words of no row (R73, R74; 95 X3, X4, X5, X9) -/

theorem test_decode_initTables : decode 0b0001000000000000 = .ok .initTables := by decide
theorem test_decode_newState : decode 0b0010101000000000 = .ok (.newState 10) := by decide
theorem test_decode_enc : decode 0b0011000001110100 = .ok (.enc 0 0x74) := by decide
theorem test_decode_encEnd : decode 0b0100000000000000 = .ok (.encEnd 0) := by decide
theorem test_decode_dec : decode 0b0101000100101111 = .ok (.dec 1 0x2F) := by decide
theorem test_decode_decEnd : decode 0b0110000100000000 = .ok (.decEnd 1) := by decide
theorem test_decode_reserved : decode 0x7000 = .error .reservedOpcode := by decide
theorem test_decode_zero : decode 0x0000 = .error .reservedOpcode := by decide
theorem test_decode_top : decode 0x8F00 = .error .reservedOpcode := by decide
theorem test_decode_initTables_context : decode 0x1100 = .error .nonzeroMustBeZero := by decide
theorem test_decode_encEnd_data : decode 0x4001 = .error .nonzeroMustBeZero := by decide
theorem test_decodeTableWord_dec : decodeTableWord 16 0x5000 = some (.dec 0 0) := by decide
theorem test_decodeTableWord_none : decodeTableWord 16 0x4001 = none := by decide

/-! ### The tables (95 T1 to T6) -/

theorem test_digitToChar :
    [0, 25, 26, 51, 52, 61, 62, 89, 90].map (digitToChar Config.classicAlphabet) =
      [0x41, 0x5A, 0x61, 0x7A, 0x30, 0x39, 0x21, 0x7E, 0x22] := by decide

theorem test_charToDigit :
    [0x41, 0x22, 0x7E, 0x21, 0x27, 0x2D, 0x5C, 0x20, 0x7F, 0xFF].map (charToDigit Config.classicAlphabet) =
      [some 0, some 90, some 89, some 62, none, none, none, none, none, none] := by decide

theorem test_encodePair :
    [0, 88, 89, 91, 8191, 8192, 8280].map (encodePair Config.classicAlphabet) =
      [0x4141, 0x417D, 0x417E, 0x4241, 0x2242, 0x2243, 0x2222] := by decide

theorem test_decodePair :
    [0x4141, 0x4142, 0x4241, 0x417E, 0x2242, 0x2222].map (decodePair Config.classicAlphabet) =
      [0, 1, 91, 89, 8191, 8280] := by decide

/-! ### One step of each command (95 sections 2.1 to 2.4) -/

/-- T8. -/
theorem test_initTables_status : registersAfter 0x1000 State.reset = some (0x0001, 0) := by decide

/-- T9. -/
theorem test_initTables_again : registersAfter 0x1000 (block [encCtx 0x74 8]) = some (0x0001, 0) := by decide

/-- T10. -/
theorem test_newState_encoding : onZero (.newState 0) (encCtx 0x74 8) = some (Ctx.idle, []) := by decide

/-- T11. -/
theorem test_newState_decoding : onZero (.newState 0) (decCtx 0 2 (some 29)) = some (Ctx.idle, []) := by decide

/-- E12: 21 bits held, the largest pair value. -/
theorem test_enc_largest : onZero (.enc 0 0x01) (encCtx 0x58 13) = some (encCtx 0 7, [0x22, 0x22]) := by decide

/-- E5: the boundary value 89 is a 13-bit codeword. -/
theorem test_enc_boundary : onZero (.enc 0 0x00) (encCtx 0x59 8) = some (encCtx 0 3, [0x7E, 0x41]) := by decide

/-- F6 and F7: at n = 7, q = 90 gives one character and q = 91 two. -/
theorem test_encEnd_seven :
    [onZero (.encEnd 0) (encCtx 90 7), onZero (.encEnd 0) (encCtx 91 7)] =
      [some (Ctx.idle, [0x22]), some (Ctx.idle, [0x41, 0x42])] := by decide

/-- F3: at n = 8 two characters leave even though q ≤ 90. -/
theorem test_encEnd_eight : onZero (.encEnd 0) (encCtx 0 8) = some (Ctx.idle, [0x41, 0x41]) := by decide

/-- D12: two bytes from 21 bits. -/
theorem test_dec_twoBytes :
    onZero (.dec 0 0x22) (decCtx 0x7F 7 (some 90)) = some (decCtx 0x10 5 none, [0x7F, 0x2C]) := by decide

/-- D2: noise between the characters of a pair. -/
theorem test_dec_noise : onZero (.dec 0 0x00) (decCtx 0 3 (some 5)) = some (decCtx 0 3 (some 5), []) := by decide

/-- G8: bits 8 and up are dropped. -/
theorem test_decEnd_drops : onZero (.decEnd 0) (decCtx 0 6 (some 90)) = some (Ctx.idle, [0x80]) := by decide

/-- G2: leftover bits are dropped. -/
theorem test_decEnd_leftover : onZero (.decEnd 0) (decCtx 5 3 none) = some (Ctx.idle, []) := by decide

/-! ### Faults (95 section 2.6) -/

/-- X1. -/
theorem test_fault_notReady : registersAfter 0x3041 State.reset = some (0x000E, 0x3041) := by decide

/-- X4. -/
theorem test_fault_illegal : registersAfter 0x4001 (block [Ctx.idle]) = some (0x0007, 0x4001) := by decide

/-- X10: BAD_CONTEXT before NOT_READY. -/
theorem test_fault_badContext : registersAfter 0x3200 State.reset = some (0x000A, 0x3200) := by decide

/-- X7. -/
theorem test_fault_roleMisuse : registersAfter 0x5041 (block [encCtx 0x41 8]) = some (0x0013, 0x5041) := by decide

/-- X8: a faulted block drops the command. -/
theorem test_fault_dropped :
    registersAfter 0x3042 { block [encCtx 0x41 8] with status := 0x0013, faultCmd := 0x5041 } =
      some (0x0013, 0x5041) := by decide

/-! ### The end of a run (70_reset_and_hazards.md R237) -/

/-- The block with two contexts right after reset. -/
def twoAfterReset : State := State.resetWith { Params.default with numCtx := 2 }

/-- Whether a run of these command words from reset ends well for the streams `claimed`. -/
def wordsEndWell (ws : List Word) (claimed : List StreamName) : Prop :=
  ∃ t tr, drive (ws.map HostAction.command) twoAfterReset = some (t, tr) ∧ EndsWell claimed tr t

/-- Context 1 holds unflushed data, and the run has still ended well for the stream on context 0. -/
theorem test_endsWell_other_unfinished : wordsEndWell [0x1000, 0x3174, 0x3041, 0x4000] [{ context := 0, index := 0 }] :=
  ⟨_, _, rfl, by unfold EndsWell Finalized; decide⟩

/-- A stream dropped by NEW_STATE in mid-stream leaves every context Idle, and has not ended well (R121, R233). -/
theorem test_endsWell_dropped :
    (∃ t tr, drive [.command 0x1000, .command 0x3074, .command 0x2000] twoAfterReset = some (t, tr) ∧
      t.faulted = false ∧ t.ctxs.all (fun c => c == Ctx.idle) ∧
      ¬ EndsWell [{ context := 0, index := 0 }] tr t ∧
      (streamsOn 0 tr).map StreamRecord.ending = [.abandoned]) :=
  ⟨_, _, rfl, by decide, by decide, by unfold EndsWell Finalized; decide, by decide⟩

/-! ### The assembler (30_encoding.md R78, R79) -/

theorem test_asm_enc : asmLine "ENC 0, 't'" = some [0x3074] := by decide
theorem test_asm_hex : asmLine "DEC 15, 0xFF" = some [0x5FFF] := by decide
theorem test_asm_context : asmLine "NEW_STATE 16" = none := by decide
theorem test_asm_byte : asmLine "ENC 0, 0x100" = none := by decide
theorem test_asm_string : asmLine "ENCS 0, \"te\\x00\"" = some [0x3074, 0x3065, 0x3000] := by decide
theorem test_asm_empty : asmLine "DECS 3, \"\"" = some [] := by decide

/-! ### Witnesses: states that meet the hypotheses of the obligations -/

/-- Four contexts at the edges of their ranges: encoding with 13 bits, decoding with 7 bits and a pending digit, decoding with
none pending, Idle. -/
def busy : State := block [encCtx 8191 13, decCtx 127 7 (some 90), decCtx 127 7 none, Ctx.idle]

/-- The same block, faulted. -/
def halted : State := { busy with status := 0x0013, faultCmd := 0x5041 }

theorem busy_params_ok : busy.params.ok := by decide

theorem busy_inv : busy.Inv := State.inv_of_checks busy_params_ok (by decide) rfl rfl (by decide)

theorem busy_accepts (k : Nat) (h : k < 4) : busy.accepts k := ⟨by decide, h, by decide⟩

theorem witness_DecodeOfEncodeIsIdentity : (Instr.enc 15 0xFF).wf = true := by decide

theorem witness_EncodeOfDecodeIsIdentity : decode 0x3FFF = .ok (.enc 15 0xFF) := by decide

theorem witness_OpcodeMapDecidesEveryWord :
    rowEncEnd ∈ opcodeTable ∧ rowEncEnd.accepts 0x4F00 = true ∧ decode 0x4F00 = .ok (.encEnd 15) := by decide

theorem witness_OperandsComeFromTheirFields :
    decode 0x3FFF = .ok (.enc 15 0xFF) ∧ contextOperand (.enc 15 0xFF) = some 15 ∧
    decode 0x5000 = .ok (.dec 0 0) ∧ contextOperand (.dec 0 0) = some 0 := by decide

theorem witness_IllegalWordsAreExactlyTheseAndFault :
    decode 0x7000 = .error .reservedOpcode ∧ busy.faulted = false ∧
    (busy.offer (.command 0x7000)).host = .command 0x7000 :: [] := by decide

theorem witness_StepRunsDecodedCommand :
    (busy.offer (.command 0x3FFF)).host = .command 0x3FFF :: [] ∧ decode 0x3FFF = .ok (.enc 15 0xFF) ∧
    decodeTableWord 16 0x6F00 = some (.decEnd 15) := by decide

theorem witness_BlockWaitsForTheHost : busy.host = [] := rfl

theorem witness_QueuedActionsRunInOrder :
    ∃ t tr, drive [.command 0x3041, .readRegister 1, .reset] busy = some (t, tr) := ⟨_, _, rfl⟩

/-- Clause by clause: dropped, illegal, bad context (k = NUM_CTX), not ready, role misuse both ways, and the four ways to
execute. -/
theorem witness_ChecksAreTakenInOrder :
    halted.faulted = true ∧
    (busy.faulted = false ∧ decode 0x0000 = .error .reservedOpcode) ∧
    (decode 0x3400 = .ok (.enc 4 0) ∧ contextOperand (.enc 4 0) = some 4 ∧ busy.numCtx = 4) ∧
    (State.reset.faulted = false ∧ decode 0x2000 = .ok (.newState 0) ∧ 0 < State.reset.numCtx ∧
      State.reset.ready = false) ∧
    ((busy.ctx 1).role = .decoding ∧ decode 0x3100 = .ok (.enc 1 0) ∧ decode 0x4100 = .ok (.encEnd 1)) ∧
    ((busy.ctx 0).role = .encoding ∧ decode 0x5000 = .ok (.dec 0 0) ∧ decode 0x6000 = .ok (.decEnd 0)) ∧
    decode 0x1000 = .ok .initTables ∧ decode 0x2300 = .ok (.newState 3) ∧
    ((busy.ctx 3).role ≠ .decoding ∧ (busy.ctx 3).role ≠ .encoding) := by decide

theorem witness_FaultEntryIsPrecise :
    ∃ t, busy.faulted = false ∧ step (busy.offer (.command 0x5041)) = .next t ∧ t.faulted = true :=
  ⟨_, by decide, rfl, by decide⟩

/-- One fault of each cause. -/
theorem witness_FaultCausesAndTheirCodes :
    (after (step (busy.offer (.command 0x7000)))).map State.cause = some 1 ∧
    (after (step (busy.offer (.command 0x3400)))).map State.cause = some 2 ∧
    (after (step (State.reset.offer (.command 0x3041)))).map State.cause = some 3 ∧
    (after (step (busy.offer (.command 0x5041)))).map State.cause = some 4 := by decide

theorem witness_FaultedBlockDropsEverything :
    halted.faulted = true ∧ NoReset [.command 0x1000, .readRegister 1] ∧
    ReadsExist [.command 0x1000, .readRegister 1] :=
  ⟨by decide, by decide, by intro n h; simp at h; omega⟩

theorem witness_CommandsBeforeInitTablesFault :
    State.reset.faulted = false ∧ State.reset.ready = false ∧ Instr.newState 0 ≠ .initTables ∧
    contextOperand (.newState 0) = some 0 ∧ 0 < State.reset.numCtx := by decide

theorem witness_DirectionChangeNeedsFinalizer :
    busy.accepts 0 ∧ (busy.ctx 0).role = .encoding ∧ busy.accepts 1 ∧ (busy.ctx 1).role = .decoding ∧
    busy.accepts 3 ∧ (busy.ctx 3).role = .idle :=
  ⟨busy_accepts 0 (by decide), rfl, busy_accepts 1 (by decide), rfl, busy_accepts 3 (by decide), rfl⟩

theorem witness_InitTablesSetsReady :
    halted.faulted = true ∧ State.reset.faulted = false ∧ busy.faulted = false ∧ busy.ready = true := by decide

/-- The faults all apply somewhere, and so does the effect, in each role. -/
theorem witness_NewStateMakesContextIdle :
    halted.faulted = true ∧ (busy.faulted = false ∧ busy.numCtx ≤ 4) ∧
    (State.reset.faulted = false ∧ 0 < State.reset.numCtx ∧ State.reset.ready = false) ∧
    busy.accepts 0 ∧ busy.accepts 1 ∧ busy.Inv ∧ busy.accepts 3 ∧ (busy.ctx 3).role = .idle :=
  ⟨by decide, by decide, by decide, busy_accepts 0 (by decide), busy_accepts 1 (by decide), busy_inv,
    busy_accepts 3 (by decide), rfl⟩

/-- Every case of the result: n = 13 (buffered), n = 21 with more than 88 and with 88 exactly, and the ROLE_MISUSE case. -/
theorem witness_EncConsumesOneByte :
    (busy.Inv ∧ busy.accepts 0 ∧ (busy.ctx 0).role ≠ .decoding ∧
      (busy.ctx 0).bitCount.toNat + 8 = 21 ∧ (busy.ctx 0).bitQueue.toNat % 8192 > 88) ∧
    ((block [encCtx 0 5]).Inv ∧ (block [encCtx 0 5]).accepts 0 ∧ ((block [encCtx 0 5]).ctx 0).bitCount.toNat + 8 = 13) ∧
    ((block [encCtx 88 13]).Inv ∧ (block [encCtx 88 13]).accepts 0 ∧
      ((block [encCtx 88 13]).ctx 0).bitQueue.toNat % 8192 = 88) ∧
    (busy.accepts 1 ∧ some Role.decoding = some (busy.ctx 1).role) :=
  ⟨⟨busy_inv, busy_accepts 0 (by decide), by decide, by decide, by decide⟩,
    ⟨State.inv_of_checks (by decide) (by decide) rfl rfl (by decide), ⟨by decide, by decide, by decide⟩, by decide⟩,
    ⟨State.inv_of_checks (by decide) (by decide) rfl rfl (by decide), ⟨by decide, by decide, by decide⟩, by decide⟩,
    busy_accepts 1 (by decide), rfl⟩

/-- Skipped, first digit, second digit (n = 21), and the ROLE_MISUSE case. -/
theorem witness_DecConsumesOneCharacter :
    busy.Inv ∧
    (busy.accepts 1 ∧ (busy.ctx 1).role ≠ .encoding ∧ charToDigit busy.alphabet 0x27 = none ∧
      charToDigit busy.alphabet 0x22 = some 90 ∧ (busy.ctx 1).pending = some 90) ∧
    (busy.accepts 2 ∧ (busy.ctx 2).role ≠ .encoding ∧ (busy.ctx 2).pending = none) ∧
    (busy.accepts 0 ∧ some Role.encoding = some (busy.ctx 0).role) :=
  ⟨busy_inv, ⟨busy_accepts 1 (by decide), by decide, by decide, by decide, by decide⟩,
    ⟨busy_accepts 2 (by decide), by decide, by decide⟩, busy_accepts 0 (by decide), rfl⟩

theorem witness_EncEndFlushesAndGoesIdle :
    (busy.accepts 0 ∧ (busy.ctx 0).role ≠ .decoding ∧ (busy.ctx 0).bitCount.toNat > 7) ∧
    (busy.accepts 3 ∧ (busy.ctx 3).role ≠ .decoding ∧ (busy.ctx 3).bitCount.toNat = 0) ∧
    ((block [encCtx 90 7]).accepts 0 ∧ ((block [encCtx 90 7]).ctx 0).bitQueue.toNat = 90) :=
  ⟨⟨busy_accepts 0 (by decide), by decide, by decide⟩, ⟨busy_accepts 3 (by decide), by decide, by decide⟩,
    ⟨by decide, by decide, by decide⟩, by decide⟩

theorem witness_DecEndFlushesAndGoesIdle :
    busy.Inv ∧ (busy.accepts 1 ∧ (busy.ctx 1).role ≠ .encoding ∧ (busy.ctx 1).pending = some 90) ∧
    (busy.accepts 2 ∧ (busy.ctx 2).role ≠ .encoding ∧ (busy.ctx 2).pending = none) :=
  ⟨busy_inv, ⟨busy_accepts 1 (by decide), by decide, by decide⟩, busy_accepts 2 (by decide), by decide, by decide⟩

theorem witness_FinalizerOnIdleHasNoEffect : busy.Inv ∧ busy.accepts 3 ∧ (busy.ctx 3).role = .idle :=
  ⟨busy_inv, busy_accepts 3 (by decide), rfl⟩

/-- A next state of each command, one of them a fault. -/
theorem witness_ResponseLengths :
    busy.Inv ∧ (∃ t, exec .initTables busy = .next t) ∧ (∃ t, exec (.newState 0) busy = .next t) ∧
    (∃ t, exec (.enc 0 0) busy = .next t) ∧ (∃ t, exec (.encEnd 0) busy = .next t) ∧
    (∃ t, exec (.dec 1 0x22) busy = .next t) ∧ (∃ t, exec (.decEnd 1) busy = .next t) ∧
    (∃ t, exec (.dec 0 0) busy = .next t ∧ t.faulted = true) :=
  ⟨busy_inv, ⟨_, rfl⟩, ⟨_, rfl⟩, ⟨_, rfl⟩, ⟨_, rfl⟩, ⟨_, rfl⟩, ⟨_, rfl⟩, ⟨_, rfl, by decide⟩⟩

theorem witness_EncodingEmitsAlphabetCharacters :
    busy.Inv ∧ (∃ t, exec (.enc 0 0xFF) busy = .next t) ∧ ∃ t, exec (.encEnd 0) busy = .next t :=
  ⟨busy_inv, ⟨_, rfl⟩, ⟨_, rfl⟩⟩

theorem witness_ContextCommandsTouchOnlyTheirContext :
    contextOperand (.enc 0 0xFF) = some 0 ∧ ∃ t, exec (.enc 0 0xFF) busy = .next t ∧ t.faulted = busy.faulted :=
  ⟨rfl, _, rfl, by decide⟩

/-- `busy` and a block that differs from it in every context but 0. -/
theorem witness_ContextCommandsReadOnlyTheirContext :
    let other := block [encCtx 8191 13, Ctx.idle, Ctx.idle, Ctx.idle]
    contextOperand (.enc 0 0) = some 0 ∧ busy.status = other.status ∧ busy.faultCmd = other.faultCmd ∧
    busy.alphabet = other.alphabet ∧ busy.numCtx = other.numCtx ∧ busy.ctx 0 = other.ctx 0 ∧
    (∃ t, exec (.enc 0 0) busy = .next t) ∧ ∃ t, exec (.enc 0 0) other = .next t :=
  ⟨rfl, rfl, rfl, rfl, rfl, rfl, ⟨_, rfl⟩, ⟨_, rfl⟩⟩

theorem witness_RoleFollowsTheCommand :
    busy.accepts 0 ∧ (busy.ctx 0).role = .encoding ∧ busy.accepts 1 ∧ (busy.ctx 1).role = .decoding :=
  ⟨busy_accepts 0 (by decide), rfl, busy_accepts 1 (by decide), rfl⟩

/-- A step that sets a pending digit, and one that takes it away. -/
theorem witness_PendingIsDecoderOnly :
    busy.Inv ∧ 2 < busy.numCtx ∧
    (∃ t, step (busy.offer (.command 0x5222)) = .next t ∧ (t.ctx 2).pending = some 90 ∧ (busy.ctx 2).pending ≠ some 90) ∧
    (∃ t, step (busy.offer (.command 0x6100)) = .next t ∧ (busy.ctx 1).pending ≠ none ∧ (t.ctx 1).pending = none) ∧
    (∃ t, step busy = .next t ∧ (t.ctx 0).role ≠ .decoding) :=
  ⟨busy_inv, by decide, ⟨_, rfl, by decide, by decide⟩, ⟨_, rfl, by decide, by decide⟩, _, rfl, by decide⟩

theorem witness_FlagsChangeOnlyAsStated :
    (∃ t, step (State.reset.offer (.command 0x1000)) = .next t ∧ State.reset.ready = false ∧ t.ready = true) ∧
    (∃ t, step (busy.offer .reset) = .next t ∧ busy.ready = true ∧ t.ready = false) ∧
    (∃ t, step (busy.offer (.command 0x0000)) = .next t ∧ busy.faulted = false ∧ t.faulted = true) ∧
    (∃ t, step (halted.offer .reset) = .next t ∧ halted.faulted = true ∧ t.faulted = false) :=
  ⟨⟨_, rfl, by decide, by decide⟩, ⟨_, rfl, by decide, by decide⟩, ⟨_, rfl, by decide, by decide⟩,
    _, rfl, by decide, by decide⟩

theorem witness_StatusWordLayout : busy.Inv ∧ busy.faulted = false := ⟨busy_inv, by decide⟩

theorem witness_HostReadReturnsRegister : ∃ n, 2 ≤ n := ⟨2, by decide⟩

theorem witness_ResetSetsEveryPieceOfState : (busy.offer .reset).host = .reset :: [] ∧ 3 < busy.numCtx := by decide

theorem witness_StepKeepsInvariant : ∃ t, busy.Inv ∧ step busy = .next t := ⟨_, busy_inv, rfl⟩

theorem witness_ResetHasInvariant : Params.default.ok ∧ { Params.default with numCtx := 16 }.ok := by decide

theorem witness_StepKeepsParameters : ∃ t, step (busy.offer .reset) = .next t := ⟨_, rfl⟩

theorem witness_ContextRangesAfterEveryStep :
    ∃ t, busy.Inv ∧ step busy = .next t ∧ (t.ctx 0).role = .encoding ∧ (t.ctx 1).role = .decoding ∧
      (t.ctx 3).role = .idle ∧ 3 < t.numCtx :=
  ⟨_, busy_inv, rfl, rfl, rfl, rfl, by decide⟩

theorem witness_IntermediateValuesFit :
    (encCtx 8191 13).Ok ∧ (encCtx 8191 13).role ≠ .decoding ∧
    (decCtx 127 7 (some 90)).Ok ∧ (decCtx 127 7 (some 90)).role ≠ .encoding ∧ (90 : Digit).toNat ≤ 90 :=
  ⟨Ctx.ok_of_check (by decide), by decide, Ctx.ok_of_check (by decide), by decide, by decide⟩

/-- Both sides of each bound: 13 and 14 bits to encode, 15 and 16 bits to decode. -/
theorem witness_LoopsAreBounded :
    ((encCtx 0 5).Ok ∧ (encCtx 0 5).role ≠ .decoding ∧ (encCtx 0 5).bitCount.toNat + 8 = 13) ∧
    ((encCtx 0 6).Ok ∧ (encCtx 0 6).bitCount.toNat + 8 = 14) ∧
    ((decCtx 0 2 none).Ok ∧ (decCtx 0 2 none).role ≠ .encoding ∧ (decCtx 0 2 none).bitCount.toNat + pairWidth 89 = 15) ∧
    (decCtx 0 2 none).bitCount.toNat + pairWidth 88 = 16 :=
  ⟨⟨Ctx.ok_of_check (by decide), by decide, by decide⟩, ⟨Ctx.ok_of_check (by decide), by decide⟩,
    ⟨Ctx.ok_of_check (by decide), by decide, by decide⟩, by decide⟩

theorem witness_AlphabetIsBijective : Params.default.ok := by decide

theorem witness_DefaultCharToDigitRanges :
    [(0x21 : Byte), 0x22, 0x26, 0x2C, 0x2F, 0x39, 0x40, 0x5A, 0x5B, 0x60, 0x7A, 0x7E, 0x7F].map
        (charToDigit Params.default.alphabet) =
      [some 62, some 90, some 66, some 71, some 73, some 61, some 80, some 25, some 81, some 85, some 51, some 89,
        none] := by decide

theorem witness_PairTableContents :
    (8280 : PairValue).toNat ≤ 8280 ∧ charToDigit Config.classicAlphabet 0x22 = some 90 := by decide

theorem witness_PairTablesRoundTrip : Params.default.ok ∧ (8280 : PairValue).toNat ≤ 8280 := by decide

theorem witness_TablesAgreeWithArithmetic :
    charToDigit Config.classicAlphabet 0x22 = some 90 ∧ charToDigit Config.classicAlphabet 0x41 = some 0 ∧
    (decCtx 127 7 (some 90)).pending = some 90 := by decide

theorem witness_AdaptiveWidthAgrees :
    takeWidth 89 = 13 ∧ takeWidth 88 = 14 ∧ (8280 : PairValue).toNat ≤ 8280 ∧ pairWidth 8191 = 13 ∧
    pairWidth 8192 = 14 := by decide

theorem witness_ShiftInIsLeastSignificantFirst : (0x1FFF : Queue).toNat < 2 ^ 13 ∧ 13 ≤ 24 := by decide

/-- 95 P4: context 0 encodes FF FF while context 1 decodes, against context 0 alone. -/
theorem witness_ContextOutputDependsOnItsCommands :
    let two := block [Ctx.idle, Ctx.idle]
    let acts : List HostAction := [.command 0x30FF, .command 0x512F, .readRegister 0, .command 0x30FF, .command 0x4000]
    let acts' : List HostAction := [.command 0x30FF, .command 0x30FF, .command 0x4000]
    NoReset acts ∧ NoReset acts' ∧ acts.filter (addresses 0) = acts'.filter (addresses 0) ∧
    (∃ t tr, drive acts two = some (t, tr) ∧ t.faulted = false) ∧
    (∃ t tr, drive acts' two = some (t, tr) ∧ t.faulted = false) :=
  ⟨by decide, by decide, by decide, ⟨_, _, rfl, by decide⟩, _, _, rfl, by decide⟩

theorem witness_StreamOutputDependsOnlyOnItsData :
    let two := block [Ctx.idle, Ctx.idle]
    let acts : List HostAction := [.command 0x30FF, .command 0x512F, .readRegister 0, .command 0x30FF, .command 0x4000]
    NoReset acts ∧ acts.filter (addresses 0) = encodingStream 0 [0xFF, 0xFF] ∧
    (∃ t tr, drive acts two = some (t, tr) ∧ t.faulted = false) ∧
    (block [Ctx.idle]).accepts 0 ∧ (block [Ctx.idle]).ctx 0 = two.ctx 0 :=
  ⟨by decide, by decide, ⟨_, _, rfl, by decide⟩, ⟨by decide, by decide, by decide⟩, rfl⟩

theorem witness_ChunkingIsInvisible : (encs 0 [0x41], encs 0 [0x42]) = (encs 0 [0x41], encs 0 [0x42]) := rfl

theorem witness_EncodingStreamEndsWell :
    busy.Inv ∧ busy.accepts 0 ∧ (busy.ctx 0).role ≠ .decoding ∧
    ((block [encCtx 0 5, Ctx.idle]).Inv ∧ ∀ j, j ≠ 0 → j < (block [encCtx 0 5, Ctx.idle]).numCtx →
      ((block [encCtx 0 5, Ctx.idle]).ctx j).role = .idle) :=
  ⟨busy_inv, busy_accepts 0 (by decide), by decide,
    State.inv_of_checks (by decide) (by decide) rfl rfl (by decide), by
      intro j h0 h
      have h2 : j < 2 := h
      have h1 : j = 1 := by omega
      subst h1
      rfl⟩

/-- A run after reset with a finalized, a dropped and an unfinished stream, not faulted, and a further one that is faulted. -/
theorem witness_RunEndsWellWhenItsStreamsAreFinalized :
    let acts : List HostAction :=
      [.command 0x1000, .command 0x3041, .command 0x4000, .command 0x3041, .command 0x2000, .command 0x5041]
    (∃ t tr, IsRun { Params.default with numCtx := 2 } tr t ∧ t.faulted = false ∧
      (streamsOn 0 tr).map StreamRecord.ending = [.finalized, .abandoned, .unfinished] ∧
      ∃ u tr', drive [.readRegister 0] t = some (u, tr')) ∧
    NoReset acts ∧
    ∃ t tr, IsRun { Params.default with numCtx := 2 } tr t ∧ t.faulted = true :=
  ⟨⟨_, _, ⟨[.command 0x1000, .command 0x3041, .command 0x4000, .command 0x3041, .command 0x2000, .command 0x5041],
      by decide, rfl⟩, by decide, by decide, _, _, rfl⟩, by decide,
    _, _, ⟨[.command 0x3041], by decide, rfl⟩, by decide⟩

theorem witness_StreamsAreCutAtFinalizersAndNewState :
    ∃ tr t, IsRun { Params.default with numCtx := 2 } tr t ∧
      (streamsOn 0 tr).map StreamRecord.ending = [.finalized, .unfinished] :=
  ⟨_, _, ⟨[.command 0x1000, .command 0x4000, .command 0x3041], by decide, rfl⟩, by decide⟩

/-- Context 0 of `busy` is in an encoding stream, begun by one ENC. -/
theorem witness_DroppedStreamNeverEndsWell :
    busy.accepts 0 ∧
    (∃ r, (streamsOn 0 [(.command 0x3041, [])]).getLast? = some r ∧ r.ending = .unfinished) ∧
    NoReset [.command 0x4000] ∧ ∃ u tr t tr', drive [present (.newState 0)] busy = some (u, tr) ∧
      drive [.command 0x4000] u = some (t, tr') :=
  ⟨busy_accepts 0 (by decide), ⟨_, rfl, rfl⟩, by decide, _, _, _, _, rfl, rfl⟩

theorem witness_AnyInputCanBeDecoded : busy.Inv ∧ busy.accepts 1 ∧ (busy.ctx 1).role ≠ .encoding :=
  ⟨busy_inv, busy_accepts 1 (by decide), by decide⟩

theorem witness_NoiseIsTolerated :
    busy.Inv ∧ busy.accepts 1 ∧ (busy.ctx 1).role ≠ .encoding ∧ inAlphabet busy.alphabet 0x27 = false :=
  ⟨busy_inv, busy_accepts 1 (by decide), by decide, by decide⟩

/-- 95 P1 and P2: "test" encodes to "fPNKd", and with noise put in it is still that once the noise is taken out. -/
theorem witness_DecodingInvertsEncoding :
    (block [Ctx.idle]).Inv ∧ (block [Ctx.idle]).accepts 0 ∧ ((block [Ctx.idle]).ctx 0).role = .idle ∧
    ((drive (encodingStream 0 [0x74, 0x65, 0x73, 0x74]) (block [Ctx.idle])).map fun r => output r.2) =
      some [0x66, 0x50, 0x4E, 0x4B, 0x64] ∧
    [(0x66 : Byte), 0x50, 0x0A, 0x4E, 0x20, 0x4B, 0x2D, 0x64].filter (inAlphabet Config.classicAlphabet) =
      [0x66, 0x50, 0x4E, 0x4B, 0x64] :=
  ⟨State.inv_of_checks (by decide) (by decide) rfl rfl (by decide), ⟨by decide, by decide, by decide⟩, rfl,
    by decide, by decide⟩

theorem witness_AssemblerEncodesLines :
    15 ≤ 15 ∧ 15 < 16 ∧ 0xFF < 0x100 ∧ (AsmLine.encs 15 [0xFF]).assemble = some [0x3FFF] := by decide

end Sys2Proof.Tests
end

section
/-! Proofs: the word of a command decodes back to the command (30_encoding.md R70, R72, R73). -/

namespace Sys2Proof

variable {r r' : OpcodeRow} {w : Word} {i : Instr} {k : Nat} {x : Byte}

/-- Every row of the opcode map fixes the opcode of the words it accepts. -/
theorem opField_of_accepts (hr : r ∈ opcodeTable) (h : r.accepts w = true) : opField w = opField r.pattern := by
  have hmask : ∀ r ∈ opcodeTable, opField r.mask = BitVec.allOnes 4 := by decide
  have hpattern : w &&& r.mask = r.pattern := by simpa [OpcodeRow.accepts] using h
  calc opField w = opField w &&& opField r.mask := by rw [hmask r hr, BitVec.and_allOnes]
    _ = opField (w &&& r.mask) := BitVec.extractLsb'_and.symm
    _ = opField r.pattern := by rw [hpattern]

/-- A word that one row accepts is accepted by no other row (R72). -/
theorem rejects_of_accepts (h : r.accepts w = true) (hd : r ∈ opcodeTable ∧ r' ∈ opcodeTable ∧ r' ≠ r) :
    r'.accepts w = false := by
  have distinct : ∀ r ∈ opcodeTable, ∀ r' ∈ opcodeTable, opField r'.pattern = opField r.pattern → r' = r := by decide
  obtain ⟨hr, hr', hne⟩ := hd
  by_contra h'
  have hop' := opField_of_accepts hr' (by simpa using h')
  exact hne (distinct r hr r' hr' (hop' ▸ opField_of_accepts hr h))

theorem decode_rowNewState (h : rowNewState.accepts w = true) : decode w = .ok (.newState (contextField w)) := by
  simp only [decode, h, rejects_of_accepts (r' := rowInitTables) h (by decide), Bool.false_eq_true, if_false, if_true]

theorem decode_rowEnc (h : rowEnc.accepts w = true) : decode w = .ok (.enc (contextField w) (dataField w)) := by
  simp only [decode, h, rejects_of_accepts (r' := rowInitTables) h (by decide),
    rejects_of_accepts (r' := rowNewState) h (by decide), Bool.false_eq_true, if_false, if_true]

theorem decode_rowEncEnd (h : rowEncEnd.accepts w = true) : decode w = .ok (.encEnd (contextField w)) := by
  simp only [decode, h, rejects_of_accepts (r' := rowInitTables) h (by decide),
    rejects_of_accepts (r' := rowNewState) h (by decide), rejects_of_accepts (r' := rowEnc) h (by decide),
    Bool.false_eq_true, if_false, if_true]

theorem decode_rowDec (h : rowDec.accepts w = true) : decode w = .ok (.dec (contextField w) (dataField w)) := by
  simp only [decode, h, rejects_of_accepts (r' := rowInitTables) h (by decide),
    rejects_of_accepts (r' := rowNewState) h (by decide), rejects_of_accepts (r' := rowEnc) h (by decide),
    rejects_of_accepts (r' := rowEncEnd) h (by decide), Bool.false_eq_true, if_false, if_true]

theorem decode_rowDecEnd (h : rowDecEnd.accepts w = true) : decode w = .ok (.decEnd (contextField w)) := by
  simp only [decode, h, rejects_of_accepts (r' := rowInitTables) h (by decide),
    rejects_of_accepts (r' := rowNewState) h (by decide), rejects_of_accepts (r' := rowEnc) h (by decide),
    rejects_of_accepts (r' := rowEncEnd) h (by decide), rejects_of_accepts (r' := rowDec) h (by decide),
    Bool.false_eq_true, if_false, if_true]

theorem contextFits_iff : contextFits k = true ↔ k ≤ 15 := decide_eq_true_iff

/-- Decoding the word of a well-formed command gives the command back. -/
theorem decode_encode (h : i.wf = true) : decode (encode i) = .ok i := by
  cases i with
  | initTables => decide
  | newState k =>
    rw [decode_rowNewState (Laws.MatchesItsRow.newState k h), encode, contextField_packWord _ _ _ (contextFits_iff.mp h)]
  | enc k x =>
    rw [decode_rowEnc (Laws.MatchesItsRow.enc k x h), encode, contextField_packWord _ _ _ (contextFits_iff.mp h),
      dataField_packWord]
  | encEnd k =>
    rw [decode_rowEncEnd (Laws.MatchesItsRow.encEnd k h), encode, contextField_packWord _ _ _ (contextFits_iff.mp h)]
  | dec k x =>
    rw [decode_rowDec (Laws.MatchesItsRow.dec k x h), encode, contextField_packWord _ _ _ (contextFits_iff.mp h),
      dataField_packWord]
  | decEnd k =>
    rw [decode_rowDecEnd (Laws.MatchesItsRow.decEnd k h), encode, contextField_packWord _ _ _ (contextFits_iff.mp h)]

end Sys2Proof
end

section
/-! Proofs: every context command is one function of its context, put back by `onContext` (10_state.md R21). -/

namespace Sys2Proof.Machine

variable {i : Instr} {j k : Nat} {s t : State} {a : List Byte} {c : Ctx} {w : Word}

/-- What a command does to the context it names once its checks pass; INIT_TABLES names none. -/
def contextEffect (a : List Byte) (i : Instr) (c : Ctx) : CtxEffect :=
  match i with
  | .initTables => { ctx := c, out := [] }
  | .newState _ => newContext c
  | .enc _ x => encodeByte a x c
  | .encEnd _ => finishEncoding a c
  | .dec _ x => decodeChar a x c
  | .decEnd _ => finishDecoding c

/-- A data command on context `k`: a stream is made of these and a finalizer (00_scope.md R11). -/
def DataOn (k : Nat) (i : Instr) : Prop := ∃ x, i = .enc k x ∨ i = .dec k x

/-- The commands that name context `k`. -/
theorem contextOperand_cases (hk : contextOperand i = some k) :
    i = .newState k ∨ i = .encEnd k ∨ i = .decEnd k ∨ DataOn k i := by
  cases i with
  | initTables => cases hk
  | newState j => cases hk; exact .inl rfl
  | encEnd j => cases hk; exact .inr (.inl rfl)
  | decEnd j => cases hk; exact .inr (.inr (.inl rfl))
  | enc j x => cases hk; exact .inr (.inr (.inr ⟨x, .inl rfl⟩))
  | dec j x => cases hk; exact .inr (.inr (.inr ⟨x, .inr rfl⟩))

theorem eq_initTables_of_contextOperand (h : contextOperand i = none) : i = .initTables := by
  cases i <;> simp only [contextOperand, reduceCtorEq] at h
  rfl

theorem effectOf_eq_onContext (hk : contextOperand i = some k) :
    effectOf i s = onContext k (contextEffect s.alphabet i) s := by
  rcases contextOperand_cases hk with rfl | rfl | rfl | ⟨x, rfl | rfl⟩ <;> rfl

/-- The context of a command that is accepted exists. -/
theorem State.accepts.lt (h : s.accepts k) : k < s.numCtx := h.2.1

theorem State.accepts.unfaulted (h : s.accepts k) : s.faulted = false := h.1

/-- A context command whose checks pass executes. -/
theorem exec_onContext (hk : contextOperand i = some k) (h : s.accepts k) (hr : opposedRole i ≠ some (s.ctx k).role) :
    exec i s = .next (onContext k (contextEffect s.alphabet i) s) := by
  rw [exec_go (check_go hk h hr), effectOf_eq_onContext hk]

theorem decodeChar_role (x : Byte) : (decodeChar a x c).ctx.role = .decoding := by
  unfold decodeChar
  split
  · rfl
  · split <;> rfl

/-- A data command leaves its context in a stream, every other context command leaves it Idle (10_state.md R26). -/
theorem contextEffect_role_ne_idle (hk : contextOperand i = some k) :
    (contextEffect a i c).ctx.role ≠ .idle ↔ DataOn k i := by
  rcases contextOperand_cases hk with rfl | rfl | rfl | ⟨x, rfl | rfl⟩
  · simp [contextEffect, newContext, Ctx.idle, DataOn]
  · simp [contextEffect, finishEncoding, Ctx.idle, DataOn]
  · simp [contextEffect, finishDecoding, Ctx.idle, DataOn]
  · simp [contextEffect, encodeByte, DataOn]
  · simp [contextEffect, decodeChar_role, DataOn]

end Sys2Proof.Machine
end

section
/-! Proofs: the bounds of the bit queue and of digits that the commands keep (10_state.md R23, R24; 20_memory.md R60). -/

namespace Sys2Proof.Machine

variable {q : Queue} {a : List Byte} {d0 d1 : Digit} {x : Byte}

/-- A value of `m` bits above `n` held bits makes `n + m` bits. -/
theorem shiftIn_lt {w n m : Nat} {v : BitVec w} (hq : q.toNat < 2 ^ n) (hv : v.toNat < 2 ^ m) (hw : n + w ≤ 32) :
    (shiftIn q n v).toNat < 2 ^ (n + m) := by
  rw [shiftIn_toNat v hq hw, Nat.pow_add]
  have : (v.toNat + 1) * 2 ^ n ≤ 2 ^ m * 2 ^ n := Nat.mul_le_mul_right _ hv
  linarith

/-- Taking `m` of `n` held bits leaves `n - m`. -/
theorem shiftRight_lt {n m : Nat} (hq : q.toNat < 2 ^ n) (hm : m ≤ n) : (q >>> m).toNat < 2 ^ (n - m) := by
  rw [shiftRight_toNat]
  apply Nat.div_lt_of_lt_mul
  rwa [← Nat.pow_add, Nat.add_sub_cancel' hm]

theorem takeWidth_range (q : Queue) : 13 ≤ takeWidth q ∧ takeWidth q ≤ 14 := by
  rw [takeWidth_eq]
  split <;> omega

theorem pairWidth_range (v : PairValue) : 13 ≤ pairWidth v ∧ pairWidth v ≤ 14 := by
  rw [pairWidth_eq]
  split <;> omega

/-- Every codeword the encoder takes is the value of two digits (30_encoding.md R84). -/
theorem takeCodeword_le (q : Queue) : (takeCodeword q).toNat ≤ 8280 := by
  rw [takeCodeword_toNat]
  split <;> omega

/-- The value of two legal digits fits the width the decoder reads for it (30_encoding.md R83). -/
theorem pairValue_lt_width (h0 : d0.toNat ≤ 90) (h1 : d1.toNat ≤ 90) :
    (pairValue d0 d1).toNat < 2 ^ pairWidth (pairValue d0 d1) := by
  have hv := pairValue_toNat d0 d1
  rw [pairWidth_eq]
  split <;> omega

/-- CHAR_TO_DIGIT gives legal digits only (40_tables.md R101). -/
theorem charToDigit_le {d : Digit} (ha : a.length = Config.base) (h : charToDigit a x = some d) : d.toNat ≤ 90 := by
  obtain ⟨n, hn, rfl⟩ := Option.map_eq_some_iff.mp h
  obtain ⟨hlt, -⟩ := List.idxOf?_eq_some_iff.mp hn
  rw [ha, Config.base] at hlt
  rw [BitVec.toNat_ofNat]
  omega

theorem toNat_ofNat_count {n : Nat} (h : n ≤ 13) : (BitVec.ofNat 5 n).toNat = n := by
  rw [BitVec.toNat_ofNat]
  omega

end Sys2Proof.Machine
end

section
/-! Proofs: what a command does to a legal context leaves a legal context and a short response (10_state.md R20 to R27,
30_encoding.md R80). -/

namespace Sys2Proof.Machine

variable {q : Queue} {n : Nat} {a : List Byte} {x : Byte} {c : Ctx} {i : Instr} {p : Option Digit}

/-- An effect that leaves a legal context and emits two bytes at most. -/
structure CtxEffect.Ok (e : CtxEffect) : Prop where
  ctx : e.ctx.Ok
  short : e.out.length ≤ 2

theorem Ctx.idle_ok : Ctx.idle.Ok := Ctx.ok_of_check (by decide)

theorem Ctx.encoding_ok (hq : q.toNat < 2 ^ n) (hn : n ≤ 13) :
    Ctx.Ok { bitQueue := q, bitCount := BitVec.ofNat 5 n, pending := none, role := .encoding } where
  queueBelow := by rwa [toNat_ofNat_count hn]
  idleZero := by simp
  encodingRange := fun _ => ⟨by rwa [toNat_ofNat_count hn], rfl⟩
  decodingRange := by simp
  pendingDigit := by simp

theorem Ctx.decoding_ok {m : BitVec 5} (hq : q.toNat < 2 ^ m.toNat) (hn : m.toNat ≤ 7)
    (hp : ∀ d, p = some d → d.toNat ≤ 90) :
    Ctx.Ok { bitQueue := q, bitCount := m, pending := p, role := .decoding } where
  queueBelow := hq
  idleZero := by simp
  encodingRange := by simp
  decodingRange := fun _ => hn
  pendingDigit := hp

/-- A context that ENC accepts holds 13 bits at most and no digit. -/
theorem Ctx.Ok.range_of_not_decoding (h : c.Ok) (hr : c.role ≠ .decoding) :
    c.bitCount.toNat ≤ 13 ∧ c.pending = none := by
  cases hrole : c.role with
  | idle => simp [h.idleZero hrole, Ctx.idle]
  | encoding => exact h.encodingRange hrole
  | decoding => exact absurd hrole hr

/-- A context that DEC accepts holds 7 bits at most. -/
theorem Ctx.Ok.range_of_not_encoding (h : c.Ok) (hr : c.role ≠ .encoding) : c.bitCount.toNat ≤ 7 := by
  cases hrole : c.role with
  | idle => simp [h.idleZero hrole, Ctx.idle]
  | encoding => exact absurd hrole hr
  | decoding => exact h.decodingRange hrole

/-- ENC with 13 bits or fewer in all buffers the byte (41_encoder.md R132). -/
theorem encodeByte_buffers (h : c.bitCount.toNat + 8 ≤ 13) :
    encodeByte a x c =
      { ctx := { c with
          bitQueue := shiftIn c.bitQueue c.bitCount.toNat x
          bitCount := BitVec.ofNat 5 (c.bitCount.toNat + 8)
          role := .encoding }
        out := [] } := by
  simp only [encodeByte, drainCodewords_done a _ _ h]

/-- ENC with more than 13 bits in all emits one codeword (41_encoder.md R132). -/
theorem encodeByte_emits (h : 13 < c.bitCount.toNat + 8) (hc : c.bitCount.toNat ≤ 13) :
    encodeByte a x c =
      let q := shiftIn c.bitQueue c.bitCount.toNat x
      { ctx := { c with
          bitQueue := q >>> takeWidth q
          bitCount := BitVec.ofNat 5 (c.bitCount.toNat + 8 - takeWidth q)
          role := .encoding }
        out := pairChars a (takeCodeword q) } := by
  simp only [encodeByte, drainCodewords_once a _ (by omega : 0 < c.bitCount.toNat + 8) h (by omega)]

theorem encodeByte_ok (h : c.Ok) (hr : c.role ≠ .decoding) : (encodeByte a x c).Ok := by
  obtain ⟨hcount, hpending⟩ := h.range_of_not_decoding hr
  have hq := shiftIn_lt h.queueBelow x.isLt (by omega)
  by_cases hn : c.bitCount.toNat + 8 ≤ 13
  · rw [encodeByte_buffers hn, hpending]
    exact ⟨Ctx.encoding_ok hq hn, by simp⟩
  · rw [encodeByte_emits (by omega) hcount, hpending]
    obtain ⟨hlo, hhi⟩ := takeWidth_range (shiftIn c.bitQueue c.bitCount.toNat x)
    exact ⟨Ctx.encoding_ok (shiftRight_lt hq (by omega)) (by omega), by simp [pairChars]⟩

/-- Draining fewer than 24 bits byte by byte leaves fewer than 8 and emits two bytes at most (42_decoder.md R153). -/
theorem drainBytes_bounds (hq : q.toNat < 2 ^ n) (h : 8 ≤ n) (hn : n < 24) :
    (drainBytes n q n).queue.toNat < 2 ^ (drainBytes n q n).count ∧ (drainBytes n q n).count ≤ 7 ∧
      (drainBytes n q n).out.length ≤ 2 := by
  by_cases h16 : n < 16
  · rw [drainBytes_once q (by omega) h h16]
    exact ⟨shiftRight_lt hq h, by simp only; omega, by simp⟩
  · rw [drainBytes_twice q (by omega) (by omega) hn]
    exact ⟨shiftRight_lt (shiftRight_lt hq h) (by omega), by simp only; omega, by simp⟩

theorem mergePair_ok {d0 d1 : Digit} (h : c.Ok) (hr : c.role ≠ .encoding) (h0 : d0.toNat ≤ 90) (h1 : d1.toNat ≤ 90) :
    (mergePair (pairValue d0 d1) c).Ok := by
  have hcount := h.range_of_not_encoding hr
  obtain ⟨hlo, hhi⟩ := pairWidth_range (pairValue d0 d1)
  obtain ⟨hq, hn, hout⟩ := drainBytes_bounds
    (shiftIn_lt h.queueBelow (pairValue_lt_width h0 h1) (by omega)) (by omega) (by omega)
  have hstored := toNat_ofNat_count (hn.trans (by omega))
  exact ⟨Ctx.decoding_ok (by rwa [hstored]) (by rwa [hstored]) (by simp), hout⟩

theorem decodeChar_ok (ha : a.length = Config.base) (h : c.Ok) (hr : c.role ≠ .encoding) : (decodeChar a x c).Ok := by
  have hcount := h.range_of_not_encoding hr
  unfold decodeChar
  split
  case h_1 => exact ⟨Ctx.decoding_ok h.queueBelow hcount h.pendingDigit, by simp⟩
  case h_2 d hd =>
    have hdigit := charToDigit_le ha hd
    split
    case h_1 => exact ⟨Ctx.decoding_ok h.queueBelow hcount (by simpa using hdigit), by simp⟩
    case h_2 first hfirst => exact mergePair_ok h hr (h.pendingDigit first hfirst) hdigit

theorem trailingChars_length (m : Nat) : (trailingChars a m n).length ≤ 2 := by
  unfold trailingChars
  split
  · split <;> simp
  · simp

theorem trailingByte_length : (trailingByte c).length ≤ 1 := by
  unfold trailingByte
  split <;> simp

/-- Every command that passes the role check keeps its context legal. -/
theorem contextEffect_ok (ha : a.length = Config.base) (h : c.Ok) (hr : opposedRole i ≠ some c.role) :
    (contextEffect a i c).Ok := by
  cases i with
  | initTables => exact ⟨h, by simp [contextEffect]⟩
  | newState k => exact ⟨Ctx.idle_ok, by simp [contextEffect, newContext]⟩
  | enc k x => exact encodeByte_ok h (by simpa [opposedRole, eq_comm] using hr)
  | encEnd k => exact ⟨Ctx.idle_ok, trailingChars_length _⟩
  | dec k x => exact decodeChar_ok ha h (by simpa [opposedRole, eq_comm] using hr)
  | decEnd k => exact ⟨Ctx.idle_ok, trailingByte_length.trans (by omega)⟩

end Sys2Proof.Machine
end

section
/-! Proofs: every step keeps the invariant and the parameters (00_scope.md R5; 10_state.md R23 to R31). -/

namespace Sys2Proof.Machine

variable {s t : State} {i : Instr} {k : Nat} {w : Word} {out : List Byte} {cause : Cause}

theorem Cause.code_range (c : Cause) : 1 ≤ c.code.toNat ∧ c.code.toNat ≤ 4 := by cases c <;> decide

theorem State.Inv.alphabet_length (h : s.Inv) : s.alphabet.length = Config.base := by
  obtain ⟨hlength, -⟩ := h.params
  exact hlength

/-- The rules for the host-visible registers speak of STATUS and FAULT_CMD alone. -/
theorem RegistersOk.congr (h : RegistersOk s) (hstatus : t.status = s.status) (hcmd : t.faultCmd = s.faultCmd) :
    RegistersOk t where
  reservedZero := by rw [hstatus]; exact h.reservedZero
  causeLegal := by rw [State.cause, hstatus]; exact h.causeLegal
  noFault := by rw [State.faulted, State.cause, hstatus, hcmd]; exact h.noFault
  someCause := by rw [State.faulted, State.cause, hstatus]; exact h.someCause

/-- Contexts, registers and parameters carry the invariant; the host's queue and the read port are no part of it, and any
short response will do (logs 3 and 4). -/
theorem State.Inv.congr (h : s.Inv) (hparams : t.params = s.params) (hctxs : t.ctxs = s.ctxs)
    (hstatus : t.status = s.status) (hcmd : t.faultCmd = s.faultCmd) (hresponse : t.response.length ≤ 2) : t.Inv where
  params := hparams ▸ h.params
  contexts := hctxs ▸ h.contexts
  registers := h.registers.congr hstatus hcmd
  idleUntilReady := by rw [State.ready, hstatus, hctxs]; exact h.idleUntilReady
  responseShort := hresponse

theorem respond_inv (h : s.Inv) (hout : out.length ≤ 2) : (s.respond out).Inv := h.congr rfl rfl rfl rfl hout

theorem withHost_inv (h : s.Inv) (rest : List HostAction) : State.Inv { s with host := rest } :=
  h.congr rfl rfl rfl rfl h.responseShort

theorem withReadData_inv (h : s.Inv) (v : Option Word) : State.Inv { s with readData := v } :=
  h.congr rfl rfl rfl rfl h.responseShort

/-- Fault entry leaves the contexts and READY, and records a legal cause (60_exceptions.md R195). -/
theorem raiseFault_inv (h : s.Inv) : (raiseFault cause w s).Inv where
  params := h.params
  contexts := h.contexts
  registers := {
    reservedZero := by simpa using h.registers.reservedZero
    causeLegal := by simpa using cause.code_range.2
    noFault := by simp
    someCause := by simpa using cause.code_range.1 }
  idleUntilReady := by simpa using h.idleUntilReady
  responseShort := by simp

theorem setReady_inv (h : s.Inv) : s.setReady.Inv where
  params := h.params
  contexts := h.contexts
  registers := {
    reservedZero := by simpa using h.registers.reservedZero
    causeLegal := by simpa using h.registers.causeLegal
    noFault := by simpa using h.registers.noFault
    someCause := by simpa using h.registers.someCause }
  idleUntilReady := by simp
  responseShort := h.responseShort

/-- On a READY block a legal context may be written. -/
theorem setCtx_inv {c : Ctx} (h : s.Inv) (hready : s.ready = true) (hc : c.Ok) : (s.setCtx k c).Inv where
  params := by simpa using h.params
  contexts := by
    intro c' hc'
    rcases List.mem_or_eq_of_mem_set hc' with hold | rfl
    · exact h.contexts c' hold
    · exact hc
  registers := h.registers.congr rfl rfl
  idleUntilReady := by simp [hready]
  responseShort := h.responseShort

/-- A context command that passes its checks keeps the invariant. -/
theorem onContext_inv (h : s.Inv) (hk : s.accepts k) (hr : opposedRole i ≠ some (s.ctx k).role) :
    (onContext k (contextEffect s.alphabet i) s).Inv := by
  obtain ⟨-, hlt, hready⟩ := hk
  have heffect := contextEffect_ok h.alphabet_length (h.contexts _ (ctx_mem s k hlt)) hr
  exact respond_inv (setCtx_inv h hready heffect.ctx) heffect.short

/-- Where the checks pass, the effect of a command keeps the invariant. -/
theorem effectOf_inv (h : s.Inv) (hgo : check i s = .go) : (effectOf i s).Inv := by
  cases hk : contextOperand i with
  | none =>
    rw [eq_initTables_of_contextOperand hk]
    exact respond_inv (setReady_inv h) (by simp)
  | some k =>
    obtain ⟨haccepts, hr⟩ := accepts_of_check_go hk hgo
    rw [effectOf_eq_onContext hk]
    exact onContext_inv h haccepts hr

theorem exec_inv (h : s.Inv) (he : exec i s = .next t) : t.Inv := by
  rcases exec_cases he with ⟨-, rfl⟩ | ⟨c, -, rfl⟩ | ⟨hgo, rfl⟩
  · exact respond_inv h (by simp)
  · exact raiseFault_inv h
  · exact effectOf_inv h hgo

theorem runWord_inv (h : s.Inv) (hw : runWord w s = .next t) : t.Inv := by
  cases hd : decode w with
  | ok i => exact exec_inv h (runWord_ok hd ▸ hw)
  | error e =>
    rw [runWord_error hd] at hw
    rcases rejectWord_cases hw with ⟨-, rfl⟩ | ⟨-, rfl⟩
    · exact respond_inv h (by simp)
    · exact raiseFault_inv h

/-- The block reset gives the invariant to every state with legal parameters (10_state.md R35). -/
theorem blockReset_inv (h : s.params.ok) : (blockReset s).Inv where
  params := by simpa using h
  contexts := by
    intro c hc
    rw [List.eq_of_mem_replicate hc]
    exact Ctx.idle_ok
  registers := by constructor <;> simp [statusReserved]
  idleUntilReady := fun _ _ hc => List.eq_of_mem_replicate hc
  responseShort := by simp

/-- Settles O34: each thing a step can do keeps the invariant. -/
theorem stepKeepsInvariant : Obligations.StepKeepsInvariant := by
  intro s t h hstep
  rcases step_cases hstep with ⟨-, rfl⟩ | ⟨w, rest, -, hw⟩ | ⟨n, rest, -, hread⟩ | ⟨rest, -, rfl⟩
  · exact h
  · exact runWord_inv (withHost_inv h rest) hw
  · obtain ⟨v, -, rfl⟩ := hostRead_cases hread
    exact withReadData_inv (withHost_inv h rest) _
  · exact blockReset_inv h.params

@[simp] theorem effectOf_params : (effectOf i s).params = s.params := by cases i <;> simp [effectOf]

theorem runWord_params (hw : runWord w s = .next t) : t.params = s.params := by
  cases hd : decode w with
  | ok i =>
    rcases exec_cases (runWord_ok hd ▸ hw) with ⟨-, rfl⟩ | ⟨c, -, rfl⟩ | ⟨-, rfl⟩ <;> simp
  | error e =>
    rcases rejectWord_cases (runWord_error hd ▸ hw) with ⟨-, rfl⟩ | ⟨-, rfl⟩ <;> simp

/-- Settles O36: no command writes the parameters, and the block reset keeps them. -/
theorem stepKeepsParameters : Obligations.StepKeepsParameters := by
  intro s t hstep
  rcases step_cases hstep with ⟨-, rfl⟩ | ⟨w, rest, -, hw⟩ | ⟨n, rest, -, hread⟩ | ⟨rest, -, rfl⟩
  · rfl
  · exact (runWord_params hw).trans rfl
  · obtain ⟨v, -, rfl⟩ := hostRead_cases hread
    rfl
  · exact blockReset_params _

/-- Settles O7: a presented word that decodes runs its command, and the table word's low bits are such a word. -/
theorem stepRunsDecodedCommand : Obligations.StepRunsDecodedCommand := by
  have presented (s : State) (w : Word) (rest : List HostAction) (i : Instr) (hhost : s.host = .command w :: rest)
      (hd : decode w = .ok i) : step s = exec i { s with host := rest } := by
    rw [step_command hhost, runWord_ok hd]
  refine ⟨presented, fun s nbits w i h => ?_⟩
  have hd : decode (BitVec.ofNat 16 (w % 2 ^ nbits)) = .ok i := by
    unfold decodeTableWord at h
    split at h
    · split at h
      · rename_i hd
        rwa [Option.some.inj h] at hd
      · cases h
    · cases h
  exact presented (s.withFetchWord nbits w) _ s.host i rfl hd

end Sys2Proof.Machine
end

section
/-! Proofs: runs of several actions, one action at a time (20_memory.md R62). -/

namespace Sys2Proof.Machine

variable {acts acts' : List HostAction} {a : HostAction} {s t u : State} {tr tr' : Transcript} {i : Instr}

/-- What it means that a run of one action and more came to its end. -/
theorem drive_cons (h : drive (a :: acts) s = some (u, tr)) :
    ∃ t tr', step (s.offer a) = .next t ∧ drive acts t = some (u, tr') ∧ tr = (a, responseTo a t) :: tr' := by
  simp only [drive] at h
  split at h
  · rename_i t hstep
    obtain ⟨⟨u', tr'⟩, hd, he⟩ := Option.map_eq_some_iff.mp h
    cases he
    exact ⟨t, tr', hstep, hd, rfl⟩
  · cases h
  · cases h

/-- A run goes on where its first action left the block. -/
theorem drive_of_step (hstep : step (s.offer a) = .next t) (hd : drive acts t = some (u, tr)) :
    drive (a :: acts) s = some (u, (a, responseTo a t) :: tr) := by simp [drive, hstep, hd]

/-- Two runs, the second from where the first ended, are one run. -/
theorem drive_append (h : drive acts s = some (t, tr)) (h' : drive acts' t = some (u, tr')) :
    drive (acts ++ acts') s = some (u, tr ++ tr') := by
  induction acts generalizing s tr with
  | nil => cases h; exact h'
  | cons a rest ih =>
    obtain ⟨v, tr₁, hstep, hd, rfl⟩ := drive_cons h
    exact drive_of_step hstep (ih hd)

/-- What holds of the transcript so far and the state at the start, and is kept by every action but the reset, holds at the end
of a run without a reset. -/
theorem drive_induction {P : Transcript → State → Prop} {before : Transcript} (hn : NoReset acts)
    (keeps : ∀ before s a t, a ≠ .reset → P before s → step (s.offer a) = .next t →
      P (before ++ [(a, responseTo a t)]) t)
    (start : P before s) (h : drive acts s = some (t, tr)) : P (before ++ tr) t := by
  induction acts generalizing s tr before with
  | nil => cases h; simpa using start
  | cons a rest ih =>
    obtain ⟨u, tr', hstep, hd, rfl⟩ := drive_cons h
    obtain ⟨hfirst, hrest⟩ := List.forall_mem_cons.mp hn
    simpa using ih hrest (keeps before s a u hfirst start hstep) hd

/-- A transcript of actions without a reset has none. -/
theorem drive_noReset (hn : NoReset acts) (h : drive acts s = some (t, tr)) : ∀ e ∈ tr, e.1 ≠ .reset := by
  intro e he
  exact hn e.1 (drive_actions h ▸ List.mem_map_of_mem he)

/-- What holds right after reset and is kept by every action but the reset holds at the end of every run. -/
theorem IsRun.induction {p : Params} {P : Transcript → State → Prop} (h : IsRun p tr t)
    (start : P [] (State.resetWith p))
    (keeps : ∀ before s a t, a ≠ .reset → P before s → step (s.offer a) = .next t →
      P (before ++ [(a, responseTo a t)]) t) : P tr t := by
  obtain ⟨acts, hn, hd⟩ := h
  simpa using drive_induction hn keeps start hd

/-- A presented command is executed on the state with nothing else waiting. -/
theorem step_offer_present (h : i.wf = true) : step (s.offer (present i)) = exec i { s with host := [] } := by
  rw [present, step_command (offer_host _ _), runWord_ok (decode_encode h)]
  rfl

end Sys2Proof.Machine
end

section
/-! Proofs: what an action of the host does to a block that does not fault (00_scope.md R12; 10_state.md R21). -/

namespace Sys2Proof.Machine

variable {a : HostAction} {s t : State} {i : Instr} {k : Nat} {w : Word}

theorem commandTo_command (h : decode w = .ok i) :
    commandTo k (.command w) = if contextOperand i = some k then some i else none := by simp [commandTo, h]

/-- A command that is presented to context `k` names it. -/
theorem commandTo_some (h : commandTo k a = some i) : ∃ w, a = .command w ∧ decode w = .ok i ∧ contextOperand i = some k := by
  cases a with
  | readRegister n => cases h
  | reset => cases h
  | command w =>
    cases hd : decode w with
    | error e => simp [commandTo, hd] at h
    | ok i' =>
      rw [commandTo_command hd] at h
      split at h
      · rename_i hk
        cases h
        exact ⟨w, rfl, hd, hk⟩
      · cases h

theorem addresses_eq_commandTo_isSome : addresses k a = (commandTo k a).isSome := by
  cases a with
  | readRegister n => rfl
  | reset => rfl
  | command w =>
    cases hd : decode w with
    | error e => simp [addresses, commandTo, hd]
    | ok i =>
      rw [commandTo_command hd]
      by_cases hk : contextOperand i = some k <;> simp [addresses, hd, hk]

/-- Only a faulted block drops a command (60_exceptions.md R196). -/
theorem faulted_of_check_drop (h : check i s = .drop) : s.faulted = true := by
  unfold check at h
  split at h
  · assumption
  · split at h
    · cases h
    · split_ifs at h

/-- The context `k` after an action that raised no fault: as its command leaves it, or as it was. -/
def ctxAfter (k : Nat) (a : HostAction) (s : State) : Ctx :=
  match commandTo k a with
  | some i => (contextEffect s.alphabet i (s.ctx k)).ctx
  | none => s.ctx k

/-- An executed command changes the context it names, and no other. -/
theorem effectOf_ctx (hd : decode w = .ok i) (hgo : check i s = .go) :
    (effectOf i s).ctx k = ctxAfter k (.command w) s := by
  rw [ctxAfter, commandTo_command hd]
  by_cases hk : contextOperand i = some k
  · obtain ⟨⟨-, hlt, -⟩, -⟩ := accepts_of_check_go hk hgo
    rw [effectOf_eq_onContext hk, if_pos hk, onContext_eq, respond_ctx, setCtx_ctx_same s k _ hlt]
  · rw [if_neg hk]
    cases hj : contextOperand i with
    | none =>
      rw [eq_initTables_of_contextOperand hj]
      rfl
    | some j =>
      have hne : k ≠ j := by
        rintro rfl
        exact hk hj
      rw [effectOf_eq_onContext hj, onContext_eq, respond_ctx, setCtx_ctx_other s j _ hne]

/-- Everything an action but the reset can do on the way to a state without a fault: there was no fault before, and each
context is as the action's command leaves it. -/
theorem step_offer_unfaulted (ha : a ≠ .reset) (h : step (s.offer a) = .next t) (hf : t.faulted = false) :
    s.faulted = false ∧ ∀ k, t.ctx k = ctxAfter k a s := by
  rcases step_cases h with ⟨hhost, -⟩ | ⟨w, rest, hhost, hw⟩ | ⟨n, rest, hhost, hread⟩ | ⟨rest, hhost, -⟩
  all_goals rw [offer_host] at hhost
  · cases hhost
  · cases hhost
    cases hd : decode w with
    | error e =>
      rcases rejectWord_cases (runWord_error hd ▸ hw) with ⟨hfaulted, rfl⟩ | ⟨-, rfl⟩
      · cases hfaulted.symm.trans hf
      · simp at hf
    | ok i =>
      rcases exec_cases (runWord_ok hd ▸ hw) with ⟨hdrop, rfl⟩ | ⟨c, -, rfl⟩ | ⟨hgo, rfl⟩
      · cases (faulted_of_check_drop hdrop).symm.trans hf
      · simp at hf
      · rw [effectOf_faulted] at hf
        exact ⟨hf, fun k => effectOf_ctx hd hgo⟩
  · cases hhost
    obtain ⟨v, -, rfl⟩ := hostRead_cases hread
    exact ⟨hf, fun k => rfl⟩
  · cases hhost
    exact absurd rfl ha

end Sys2Proof.Machine
end

section
/-! Proofs: the streams of a run (00_scope.md R11, 70_reset_and_hazards.md R237). -/

open Sys2Proof.Claims

namespace Sys2Proof.Machine

variable {a : HostAction} {s t : State} {i : Instr} {k : Nat} {cmds : List Instr} {out bytes : List Byte}
  {tr tr' : Transcript} {r : StreamRecord} {ended : List StreamRecord} {p : Params} {n : StreamName}

/-- Context `k`'s last stream has no end yet. -/
def InProgress (k : Nat) (tr : Transcript) : Prop := ∃ r, (streamsOn k tr).getLast? = some r ∧ r.ending = .unfinished

/-- Where the commands stop, only a stream in progress is left. -/
theorem streamsFrom_nil_unfinished (h : r ∈ streamsFrom cmds out []) : r.ending = .unfinished := by
  by_cases hc : cmds = []
  · simp [hc] at h
  · rw [streamsFrom_end hc, List.mem_singleton] at h
    rw [h]

/-- What the host goes on to do without a reset leaves the closed streams and carries on from the one in progress. -/
theorem streamsOn_append (k : Nat) (tr : Transcript) :
    ∃ cmds out, ∀ tr' : Transcript, (∀ e ∈ tr', e.1 ≠ .reset) →
      streamsOn k (tr ++ tr') = closedStreams k tr ++ streamsFrom cmds out (commandsOn k tr') := by
  obtain ⟨ended, cmds, out, hended, happend⟩ := streamsFrom_append [] [] (commandsOn k (sinceReset tr))
  have hnow : streamsOn k tr = ended ++ streamsFrom cmds out [] := by simpa [streamsOn] using happend []
  have hopen : (streamsFrom cmds out []).filter (fun r => r.ending != .unfinished) = [] :=
    List.filter_eq_nil_iff.mpr fun r hr => by simp [streamsFrom_nil_unfinished hr]
  have hclosed : closedStreams k tr = ended := by
    rw [closedStreams, hnow, List.filter_append, hopen, List.append_nil, List.filter_eq_self]
    simpa using hended
  refine ⟨cmds, out, fun tr' hn => ?_⟩
  rw [streamsOn, sinceReset_append hn, commandsOn_append, happend, hclosed]

theorem closedStreams_ended (h : r ∈ closedStreams k tr) : r.ending ≠ .unfinished := by
  simpa using (List.mem_filter.mp h).2

/-- The streams of a transcript are the closed ones and the one in progress, if there is one. -/
theorem streamsOn_eq (k : Nat) (tr : Transcript) :
    ∃ cmds out, streamsOn k tr = closedStreams k tr ++ streamsFrom cmds out [] := by
  obtain ⟨cmds, out, h⟩ := streamsOn_append k tr
  exact ⟨cmds, out, by simpa [commandsOn] using h [] (by simp)⟩

/-- A stream that has ended keeps its name and its record (R237). -/
theorem streamNamed_append (h : streamNamed n tr = some r) (hr : r.ending ≠ .unfinished) (hn : ∀ e ∈ tr', e.1 ≠ .reset) :
    streamNamed n (tr ++ tr') = some r := by
  obtain ⟨cmds, out, happend⟩ := streamsOn_append n.context tr
  have hnow : streamsOn n.context tr = closedStreams n.context tr ++ streamsFrom cmds out [] := by
    simpa [commandsOn] using happend [] (by simp)
  rw [streamNamed] at h ⊢
  rw [happend tr' hn]
  rw [hnow] at h
  by_cases hlt : n.index < (closedStreams n.context tr).length
  · rwa [List.getElem?_append_left hlt] at h ⊢
  · rw [List.getElem?_append_right (by omega)] at h
    exact absurd (streamsFrom_nil_unfinished (List.mem_of_getElem? h)) hr

/-- Behind streams that have ended, the last stream is in progress when the last of the rest is. -/
theorem getLast_unfinished_append (h : ∀ r ∈ ended, r.ending ≠ .unfinished) (l : List StreamRecord) :
    (∃ r, (ended ++ l).getLast? = some r ∧ r.ending = .unfinished) ↔ ∃ r, l.getLast? = some r ∧ r.ending = .unfinished := by
  rw [List.getLast?_append]
  cases hl : l.getLast? with
  | some r => simp
  | none =>
    simp only [Option.none_or, reduceCtorEq, false_and, exists_false, iff_false, not_exists, not_and]
    exact fun r hr => h r (List.mem_of_getLast? hr)

theorem commandsOn_singleton_some (h : commandTo k a = some i) : commandsOn k [(a, bytes)] = [(i, bytes)] := by
  simp [commandsOn, h]

theorem commandsOn_singleton_none (h : commandTo k a = none) : commandsOn k [(a, bytes)] = [] := by
  simp [commandsOn, h]

/-- An action that is no command on the context leaves its last stream as it was. -/
theorem inProgress_append_none (ha : a ≠ .reset) (h : commandTo k a = none) :
    InProgress k (tr ++ [(a, bytes)]) ↔ InProgress k tr := by
  obtain ⟨cmds, out, happend⟩ := streamsOn_append k tr
  have hsame : streamsOn k (tr ++ [(a, bytes)]) = streamsOn k (tr ++ []) := by
    rw [happend _ (by simpa using ha), happend _ (by simp), commandsOn_singleton_none h]
    rfl
  rw [InProgress, hsame, List.append_nil]
  rfl

/-- One more command on a context leaves a stream in progress exactly if it is a data command. -/
theorem streamsFrom_singleton_unfinished (hk : contextOperand i = some k) :
    (∃ r, (streamsFrom cmds out [(i, bytes)]).getLast? = some r ∧ r.ending = .unfinished) ↔ DataOn k i := by
  rcases contextOperand_cases hk with rfl | rfl | rfl | ⟨x, rfl | rfl⟩
  · by_cases hc : cmds = [] <;> simp [hc, DataOn]
  · simp [DataOn]
  · simp [DataOn]
  · simp [DataOn]
  · simp [DataOn]

theorem inProgress_append_some (ha : a ≠ .reset) (h : commandTo k a = some i) :
    InProgress k (tr ++ [(a, bytes)]) ↔ DataOn k i := by
  obtain ⟨cmds, out, happend⟩ := streamsOn_append k tr
  obtain ⟨w, -, -, hk⟩ := commandTo_some h
  rw [InProgress, happend _ (by simpa using ha), getLast_unfinished_append (fun r => closedStreams_ended),
    commandsOn_singleton_some h, streamsFrom_singleton_unfinished hk]

theorem resetWith_ctx : (State.resetWith p).ctx k = Ctx.idle := by
  simp only [State.ctx, resetWith_ctxs, List.getD_eq_getElem?_getD, List.getElem?_replicate]
  split <;> rfl

/-- In a run without a fault a context is in a stream, as its role has it, exactly if its last stream is in progress. -/
theorem unflushed_iff_inProgress (h : IsRun p tr t) : t.faulted = false → ∀ k, t.unflushed k ↔ InProgress k tr := by
  refine h.induction (P := fun tr t => t.faulted = false → ∀ k, t.unflushed k ↔ InProgress k tr) ?_ ?_
  · intro _ k
    simp [State.unflushed, resetWith_ctx, Ctx.idle, InProgress, streamsOn, sinceReset, commandsOn]
  · intro before s a t ha ih hstep hf k
    obtain ⟨hfs, hctx⟩ := step_offer_unfaulted ha hstep hf
    rw [State.unflushed, hctx k, ctxAfter]
    cases hc : commandTo k a with
    | none => exact (ih hfs k).trans (inProgress_append_none ha hc).symm
    | some i =>
      obtain ⟨w, -, -, hk⟩ := commandTo_some hc
      exact (contextEffect_role_ne_idle hk).trans (inProgress_append_some ha hc).symm

theorem finalized_iff : Finalized tr n ↔ ∃ r, streamNamed n tr = some r ∧ r.ending = .finalized := Option.map_eq_some_iff

/-- Settles O55: the first clauses are what it is for a run to end well; the fourth is that a transcript is only extended; the
last is the invariant of runs `unflushed_iff_inProgress`. -/
theorem runEndsWellWhenItsStreamsAreFinalized : Obligations.RunEndsWellWhenItsStreamsAreFinalized := by
  intro p tr t hrun
  refine ⟨fun claimed => ?_, ?_, ?_, ?_, fun hf k _ => unflushed_iff_inProgress hrun hf k⟩
  · simp only [EndsWell, finalized_iff, streamNamed]
  · intro hfaulted claimed hends
    exact Bool.false_ne_true (hends.2.symm.trans hfaulted)
  · intro n r claimed hr hnot hmem hends
    obtain ⟨r', hr', hfin⟩ := finalized_iff.mp (hends.1 n hmem)
    cases hr.symm.trans hr'
    exact hnot hfin
  · intro n r hr hended acts u tr' hn hd
    exact streamNamed_append hr hended (drive_noReset hn hd)

end Sys2Proof.Machine
end

section
/-! Proofs: the cut into streams neither loses nor adds a command or a byte (00_scope.md R11). -/

open Sys2Proof.Claims

namespace Sys2Proof.Machine

variable {a : HostAction} {s t : State} {i : Instr} {k : Nat} {cmds : List Instr} {out : List Byte}
  {tr : Transcript} {p : Params} {l : List (Instr × List Byte)}

/-- Commands on context `k` with their responses, NEW_STATE's empty (40_tables.md R121). -/
def CommandsOf (k : Nat) (l : List (Instr × List Byte)) : Prop :=
  ∀ e ∈ l, contextOperand e.1 = some k ∧ (e.1 = .newState k → e.2 = [])

/-- The streams hold every command but NEW_STATE. -/
theorem streamsFrom_commands (hl : CommandsOf k l) (cmds : List Instr) (out : List Byte) :
    (streamsFrom cmds out l).flatMap StreamRecord.commands =
      cmds ++ (l.map Prod.fst).filter (fun i => i != .newState k) := by
  induction l generalizing cmds out with
  | nil => by_cases hc : cmds = [] <;> simp [hc]
  | cons e rest ih =>
    obtain ⟨i, bytes⟩ := e
    obtain ⟨⟨hk, -⟩, hrest⟩ := List.forall_mem_cons.mp hl
    rcases contextOperand_cases (i := i) hk with rfl | rfl | rfl | ⟨x, rfl | rfl⟩
    · by_cases hc : cmds = [] <;> simp [hc, ih hrest]
    · simp [ih hrest]
    · simp [ih hrest]
    · simp [ih hrest]
    · simp [ih hrest]

/-- The streams hold every byte of output. -/
theorem streamsFrom_output (hl : CommandsOf k l) (hout : cmds = [] → out = []) :
    (streamsFrom cmds out l).flatMap StreamRecord.output = out ++ l.flatMap Prod.snd := by
  induction l generalizing cmds out with
  | nil => by_cases hc : cmds = [] <;> simp [hc, hout]
  | cons e rest ih =>
    obtain ⟨i, bytes⟩ := e
    obtain ⟨⟨hk, hbytes⟩, hrest⟩ := List.forall_mem_cons.mp hl
    rcases contextOperand_cases (i := i) hk with rfl | rfl | rfl | ⟨x, rfl | rfl⟩
    · have hnone : bytes = [] := hbytes rfl
      by_cases hc : cmds = [] <;> simp [hc, hout, hnone, ih hrest]
    · simp [ih hrest]
    · simp [ih hrest]
    · simp [ih hrest]
    · simp [ih hrest]

/-- What one stream on context `k` is: data commands, and its finalizer last if it has one. -/
def StreamShape (k : Nat) (r : StreamRecord) : Prop :=
  (r.ending = .finalized → ∃ cmds i, r.commands = cmds ++ [i] ∧ (i = .encEnd k ∨ i = .decEnd k) ∧ ∀ j ∈ cmds, DataOn k j) ∧
  (r.ending ≠ .finalized → r.commands ≠ [] ∧ ∀ j ∈ r.commands, DataOn k j)

theorem streamShape_unfinalized {e : StreamEnd} (he : e ≠ .finalized) (hc : cmds ≠ []) (hdata : ∀ j ∈ cmds, DataOn k j) :
    StreamShape k { commands := cmds, output := out, ending := e } := ⟨fun h => absurd h he, fun _ => ⟨hc, hdata⟩⟩

theorem streamShape_finalized (hi : i = .encEnd k ∨ i = .decEnd k) (hdata : ∀ j ∈ cmds, DataOn k j) :
    StreamShape k { commands := cmds ++ [i], output := out, ending := .finalized } :=
  ⟨fun _ => ⟨cmds, i, rfl, hi, hdata⟩, fun h => absurd rfl h⟩

theorem streamsFrom_shape (hl : CommandsOf k l) (hdata : ∀ j ∈ cmds, DataOn k j) :
    ∀ r ∈ streamsFrom cmds out l, StreamShape k r := by
  induction l generalizing cmds out with
  | nil =>
    by_cases hc : cmds = []
    · simp [hc]
    · simpa [hc] using streamShape_unfinalized (by simp) hc hdata
  | cons e rest ih =>
    obtain ⟨i, bytes⟩ := e
    obtain ⟨⟨hk, -⟩, hrest⟩ := List.forall_mem_cons.mp hl
    have fresh : ∀ r ∈ streamsFrom [] [] rest, StreamShape k r := ih hrest (by simp)
    have extended (hi : DataOn k i) : ∀ j ∈ cmds ++ [i], DataOn k j := by
      simpa [or_imp, forall_and, hi] using hdata
    rcases contextOperand_cases (i := i) hk with rfl | rfl | rfl | ⟨x, rfl | rfl⟩
    · by_cases hc : cmds = []
      · simpa [hc] using fresh
      · rw [streamsFrom_newState hc]
        exact List.forall_mem_cons.mpr ⟨streamShape_unfinalized (by simp) hc hdata, fresh⟩
    · exact List.forall_mem_cons.mpr ⟨streamShape_finalized (.inl rfl) hdata, fresh⟩
    · exact List.forall_mem_cons.mpr ⟨streamShape_finalized (.inr rfl) hdata, fresh⟩
    · exact ih hrest (extended ⟨x, .inl rfl⟩)
    · exact ih hrest (extended ⟨x, .inr rfl⟩)

/-- NEW_STATE's response is empty, executed, faulted or dropped. -/
theorem exec_newState_response (h : exec (.newState k) s = .next t) : t.response = [] := by
  rcases exec_cases h with ⟨-, rfl⟩ | ⟨c, -, rfl⟩ | ⟨-, rfl⟩ <;> rfl

theorem step_offer_newState_response (hc : commandTo k a = some (.newState k)) (h : step (s.offer a) = .next t) :
    responseTo a t = [] := by
  obtain ⟨w, rfl, hd, -⟩ := commandTo_some hc
  rw [step_command (offer_host _ _), runWord_ok hd] at h
  exact exec_newState_response h

/-- In a run, every NEW_STATE got an empty response. -/
theorem IsRun.newState_response (h : IsRun p tr t) : ∀ e ∈ tr, commandTo k e.1 = some (.newState k) → e.2 = [] := by
  refine h.induction (P := fun tr _ => ∀ e ∈ tr, commandTo k e.1 = some (.newState k) → e.2 = []) (by simp) ?_
  intro before s a t _ ih hstep e he hc
  rcases List.mem_append.mp he with hold | hnew
  · exact ih e hold hc
  · cases List.mem_singleton.mp hnew
    exact step_offer_newState_response hc hstep

theorem IsRun.commandsOn (h : IsRun p tr t) : CommandsOf k (commandsOn k tr) := by
  intro e he
  obtain ⟨⟨a, bytes⟩, hmem, hmap⟩ := List.mem_filterMap.mp he
  obtain ⟨i, hi, rfl⟩ := Option.map_eq_some_iff.mp hmap
  obtain ⟨w, -, -, hk⟩ := commandTo_some hi
  refine ⟨hk, fun hnew => ?_⟩
  simp only at hnew
  exact h.newState_response _ hmem (hnew ▸ hi)

/-- The output on a context is the responses of the commands on it. -/
theorem outputOn_eq (k : Nat) (tr : Transcript) : outputOn k tr = (commandsOn k tr).flatMap Prod.snd := by
  induction tr with
  | nil => rfl
  | cons e rest ih =>
    simp only [outputOn, output, commandsOn, List.filter_cons, List.filterMap_cons, addresses_eq_commandTo_isSome] at ih ⊢
    cases commandTo k e.1 <;> simp [ih]

theorem IsRun.streamsOn (h : IsRun p tr t) : streamsOn k tr = streamsFrom [] [] (Machine.commandsOn k tr) := by
  rw [Machine.streamsOn, sinceReset_self h.noReset]

/-- Every stream but the last has ended. -/
theorem dropLast_streamsOn_ended : ∀ r ∈ (streamsOn k tr).dropLast, r.ending ≠ .unfinished := by
  obtain ⟨cmds, out, hnow⟩ := streamsOn_eq k tr
  intro r hr
  by_cases hc : cmds = []
  · rw [hnow, hc, streamsFrom_end_idle, List.append_nil] at hr
    exact closedStreams_ended (List.mem_of_mem_dropLast hr)
  · rw [hnow, streamsFrom_end hc, List.dropLast_concat] at hr
    exact closedStreams_ended hr

/-- Settles O56: by induction on the commands the context got, one lemma per clause. -/
theorem streamsAreCutAtFinalizersAndNewState : Obligations.StreamsAreCutAtFinalizersAndNewState := by
  intro p tr t k hrun
  refine ⟨?_, ?_, ?_, dropLast_streamsOn_ended⟩
  · simpa [hrun.streamsOn] using streamsFrom_commands hrun.commandsOn [] []
  · simpa [hrun.streamsOn, outputOn_eq] using streamsFrom_output hrun.commandsOn (fun _ => rfl)
  · rw [hrun.streamsOn]
    exact streamsFrom_shape hrun.commandsOn (by simp)

end Sys2Proof.Machine
end

section
/-! Proofs: encoding streams (00_scope.md R11, 41_encoder.md R135, 43_finalizers.md R170). -/

open Sys2Proof.Claims

namespace Sys2Proof.Machine

variable {a : List Byte} {q : Queue} {c : Ctx} {s t u : State} {i : Instr} {j k : Nat} {x : Byte} {bs : List Byte}
  {tr : Transcript}

theorem digitToChar_mem {d : Nat} (ha : a.length = Config.base) (h : d ≤ 90) : digitToChar a d ∈ a := by
  have hlt : d < a.length := by rw [ha, Config.base]; omega
  rw [digitToChar_of_lt hlt]
  exact List.getElem_mem hlt

/-- The two characters of a pair value are characters of the alphabet (30_encoding.md R81). -/
theorem pairChars_mem {v : PairValue} (ha : a.length = Config.base) (h : v.toNat ≤ 8280) :
    ∀ b ∈ pairChars a v, b ∈ a := by
  simp only [pairChars, List.forall_mem_cons]
  exact ⟨digitToChar_mem ha (by omega), digitToChar_mem ha (by omega), by simp⟩

theorem encodeByte_out_mem (ha : a.length = Config.base) (h : c.Ok) (hr : c.role ≠ .decoding) :
    ∀ b ∈ (encodeByte a x c).out, b ∈ a := by
  by_cases hn : c.bitCount.toNat + 8 ≤ 13
  · simp [encodeByte_buffers hn]
  · rw [encodeByte_emits (by omega) (h.range_of_not_decoding hr).1]
    exact pairChars_mem ha (takeCodeword_le _)

/-- ENC_END's trailing characters come from a queue below 2^13, so both are digits' characters (43_finalizers.md R171). -/
theorem finishEncoding_out_mem (ha : a.length = Config.base) (h : c.Ok) (hr : c.role ≠ .decoding) :
    ∀ b ∈ (finishEncoding a c).out, b ∈ a := by
  have hq : c.bitQueue.toNat < 2 ^ 13 :=
    h.queueBelow.trans_le (Nat.pow_le_pow_right (by omega) (h.range_of_not_decoding hr).1)
  have hlow : digitToChar a (c.bitQueue.toNat % 91) ∈ a := digitToChar_mem ha (by omega)
  have hhigh : digitToChar a (c.bitQueue.toNat / 91) ∈ a := digitToChar_mem ha (by omega)
  simp only [finishEncoding, trailingChars]
  split
  · split <;> simp [hlow, hhigh]
  · simp

/-- `t` comes from `s` by commands executed on context `k`: nothing but that context differs, as far as later commands can
tell. -/
structure Continues (k : Nat) (s t : State) : Prop where
  inv : t.Inv
  status : t.status = s.status
  alphabet : t.alphabet = s.alphabet
  numCtx : t.numCtx = s.numCtx
  others : ∀ j, j ≠ k → t.ctxs[j]? = s.ctxs[j]?

theorem Continues.accepts (h : Continues k s t) (hk : s.accepts k) : t.accepts k := by
  obtain ⟨hf, hlt, hready⟩ := hk
  exact ⟨by rwa [State.faulted, h.status], h.numCtx ▸ hlt, by rwa [State.ready, h.status]⟩

theorem Continues.trans (h : Continues k s t) (h' : Continues k t u) : Continues k s u where
  inv := h'.inv
  status := h'.status.trans h.status
  alphabet := h'.alphabet.trans h.alphabet
  numCtx := h'.numCtx.trans h.numCtx
  others := fun j hj => (h'.others j hj).trans (h.others j hj)

theorem wf_of_contextOperand (hk : contextOperand i = some k) (h : k ≤ 15) : i.wf = true := by
  rcases contextOperand_cases hk with rfl | rfl | rfl | ⟨x, rfl | rfl⟩ <;> exact contextFits_iff.mpr h

/-- Every context that exists has a number that fits a command word (00_scope.md R5, 30_encoding.md R75). -/
theorem State.Inv.context_le (h : s.Inv) (hk : k < s.numCtx) : k ≤ 15 := by
  obtain ⟨-, -, -, hmax⟩ := h.params
  have hlt : k < s.params.numCtx := hk
  omega

/-- Presenting a context command whose checks pass runs it: its context and its response are its effect's, and the block goes on
from there. -/
theorem drive_present (hinv : s.Inv) (hs : s.accepts k) (hk : contextOperand i = some k)
    (hr : opposedRole i ≠ some (s.ctx k).role) :
    ∃ t, drive [present i] s = some (t, [(present i, (contextEffect s.alphabet i (s.ctx k)).out)]) ∧
      t.ctx k = (contextEffect s.alphabet i (s.ctx k)).ctx ∧ Continues k s t := by
  let s' : State := { s with host := [] }
  have hs' : s'.accepts k := hs
  have hstep : step (s.offer (present i)) = .next (onContext k (contextEffect s.alphabet i) s') := by
    rw [step_offer_present (wf_of_contextOperand hk (hinv.context_le hs.lt)), exec_onContext hk hs' hr]
  refine ⟨onContext k (contextEffect s.alphabet i) s', drive_of_step hstep rfl, ?_, ?_⟩
  · exact setCtx_ctx_same s' k _ hs'.lt
  · exact {
      inv := onContext_inv (withHost_inv hinv []) hs' hr
      status := rfl
      alphabet := rfl
      numCtx := setCtx_numCtx s' k _
      others := fun j hj => List.getElem?_set_ne (Ne.symm hj) }

/-- ENCS runs to its end and emits alphabet characters only. -/
theorem drive_encs (hinv : s.Inv) (hs : s.accepts k) (hr : (s.ctx k).role ≠ .decoding) (bs : List Byte) :
    ∃ t tr, drive (encs k bs) s = some (t, tr) ∧ Continues k s t ∧ (t.ctx k).role ≠ .decoding ∧
      ∀ b ∈ output tr, b ∈ s.alphabet := by
  induction bs generalizing s with
  | nil => exact ⟨s, [], rfl, ⟨hinv, rfl, rfl, rfl, fun _ _ => rfl⟩, hr, by simp [output]⟩
  | cons x xs ih =>
    obtain ⟨t, hd, hctx, hcont⟩ := drive_present (i := .enc k x) hinv hs rfl (by simpa [opposedRole, eq_comm] using hr)
    have hrole : (t.ctx k).role ≠ .decoding := by simp [hctx, contextEffect, encodeByte]
    obtain ⟨u, tr, hd', hcont', hrole', hout⟩ := ih hcont.inv (hcont.accepts hs) hrole
    refine ⟨u, _, drive_append hd hd', hcont.trans hcont', hrole', ?_⟩
    have hfirst := encodeByte_out_mem (x := x) hinv.alphabet_length (hinv.contexts _ (ctx_mem s k hs.lt)) hr
    rw [hcont.alphabet] at hout
    simp only [output, List.flatMap_append, List.mem_append]
    rintro b (hb | hb)
    · exact hfirst b (by simpa [contextEffect] using hb)
    · exact hout b hb

/-- A whole encoding stream runs to its end. -/
theorem drive_encodingStream (hinv : s.Inv) (hs : s.accepts k) (hr : (s.ctx k).role ≠ .decoding) (bs : List Byte) :
    ∃ t tr, drive (encodingStream k bs) s = some (t, tr) ∧ Continues k s t ∧ t.ctx k = Ctx.idle ∧
      ∀ b ∈ output tr, b ∈ s.alphabet := by
  obtain ⟨t, tr, hd, hcont, hrole, hout⟩ := drive_encs hinv hs hr bs
  have ht := hcont.accepts hs
  obtain ⟨u, hd', hctx, hcont'⟩ := drive_present (i := .encEnd k) hcont.inv ht rfl (by simpa [opposedRole, eq_comm] using hrole)
  refine ⟨u, _, drive_append hd hd', hcont.trans hcont', hctx, ?_⟩
  have hlast := finishEncoding_out_mem hcont.inv.alphabet_length (hcont.inv.contexts _ (ctx_mem t k ht.lt)) hrole
  rw [hcont.alphabet] at hlast
  simp only [output, List.flatMap_append, List.mem_append]
  rintro b (hb | hb)
  · exact hout b hb
  · exact hlast b (by simpa [hcont.alphabet, contextEffect] using hb)

/-- The commands on `k` of a transcript of commands presented to `k` are these commands. -/
theorem commandsOn_present {is : List Instr} (h : tr.map Prod.fst = is.map present)
    (his : ∀ i ∈ is, contextOperand i = some k) (hk : k ≤ 15) : (commandsOn k tr).map Prod.fst = is := by
  induction is generalizing tr with
  | nil =>
    rw [List.map_nil, List.map_eq_nil_iff] at h
    rw [h]
    rfl
  | cons i rest ih =>
    obtain ⟨e, tr', rfl, he, hrest⟩ := List.map_eq_cons_iff.mp h
    obtain ⟨hi, hothers⟩ := List.forall_mem_cons.mp his
    have hto : commandTo k e.1 = some i := by
      rw [he, present, commandTo_command (decode_encode (wf_of_contextOperand hi hk)), if_pos hi]
    simpa [commandsOn, hto] using ih hrest hothers

/-- Data commands on one context and then a finalizer on it end the stream in progress, and make no other. -/
theorem streamsFrom_finalized {data : List Instr} {l : List (Instr × List Byte)} (h : l.map Prod.fst = data ++ [i])
    (hdata : ∀ d ∈ data, DataOn k d) (hi : i = .encEnd k ∨ i = .decEnd k) (cmds : List Instr) (out : List Byte) :
    ∃ r, streamsFrom cmds out l = [r] ∧ r.ending = .finalized := by
  induction data generalizing l cmds out with
  | nil =>
    obtain ⟨⟨i', bytes⟩, rfl, rfl⟩ := List.map_eq_singleton_iff.mp h
    rcases hi with rfl | rfl <;> exact ⟨_, rfl, rfl⟩
  | cons d rest ih =>
    obtain ⟨⟨d', bytes⟩, l', rfl, rfl, hrest⟩ := List.map_eq_cons_iff.mp h
    obtain ⟨⟨x, hd⟩, hothers⟩ := List.forall_mem_cons.mp hdata
    rcases hd with rfl | rfl <;> exact ih hrest hothers _ _

/-- A whole stream that ended without a fault ends the run well, whatever the host did before (R237). -/
theorem endsWell_append_stream {data : List Instr} (h : tr.map Prod.fst = (data ++ [i]).map present)
    (hdata : ∀ d ∈ data, DataOn k d) (hi : i = .encEnd k ∨ i = .decEnd k) (hk : k ≤ 15) (hf : t.faulted = false)
    (before : Transcript) :
    EndsWell [{ context := k, index := (closedStreams k before).length }] (before ++ tr) t := by
  have hcontext : ∀ d ∈ data ++ [i], contextOperand d = some k := by
    intro d hd
    rcases List.mem_append.mp hd with hd | hd
    · obtain ⟨x, rfl | rfl⟩ := hdata d hd <;> rfl
    · rw [List.mem_singleton.mp hd]
      rcases hi with rfl | rfl <;> rfl
  have hnoReset : ∀ e ∈ tr, e.1 ≠ .reset := by
    intro e he heq
    obtain ⟨d, -, hd⟩ := List.mem_map.mp (h ▸ List.mem_map_of_mem he)
    cases hd.trans heq
  obtain ⟨cmds, out, happend⟩ := streamsOn_append k before
  obtain ⟨r, hr, hfin⟩ := streamsFrom_finalized (commandsOn_present h hcontext hk) hdata hi cmds out
  refine ⟨?_, hf⟩
  intro n hn
  rw [List.mem_singleton.mp hn]
  exact finalized_iff.mpr ⟨r, by simp [streamNamed, happend tr hnoReset, hr], hfin⟩

/-- If every context but `k` is Idle before commands on `k` leave that one Idle, all are. -/
theorem Continues.all_idle (h : Continues k s t) (hk : t.ctx k = Ctx.idle)
    (hothers : ∀ j, j ≠ k → j < s.numCtx → ¬ s.unflushed j) : ∀ c ∈ t.ctxs, c.role = .idle := by
  intro c hc
  obtain ⟨j, hj, rfl⟩ := List.mem_iff_getElem.mp hc
  have hctx : t.ctx j = t.ctxs[j] := by simp [State.ctx, List.getD, hj]
  rw [← hctx]
  by_cases hjk : j = k
  · rw [hjk, hk]
    rfl
  · have hsame : t.ctx j = s.ctx j := by
      simp only [State.ctx, List.getD_eq_getElem?_getD, h.others j hjk]
    have hlt : j < s.numCtx := h.numCtx ▸ hj
    rw [hsame]
    exact not_not.mp (hothers j hjk hlt)

/-- Settles O50: ENCS by induction on its bytes, then ENC_END; the run's record of the stream is then finalized. -/
theorem encodingStreamEndsWell : Obligations.EncodingStreamEndsWell := by
  intro s k bs hinv hs hr
  obtain ⟨t, tr, hd, hcont, hctx, hout⟩ := drive_encodingStream hinv hs hr bs
  have hf : t.faulted = false := (hcont.accepts hs).unfaulted
  have hactions : tr.map Prod.fst = (bs.map (Instr.enc k) ++ [Instr.encEnd k]).map present := by
    rw [drive_actions hd]
    simp [encodingStream, encs]
  have hdata : ∀ d ∈ bs.map (Instr.enc k), DataOn k d := by
    intro d hd
    obtain ⟨x, -, rfl⟩ := List.mem_map.mp hd
    exact ⟨x, .inl rfl⟩
  exact ⟨t, tr, hd, hf, hout, hctx, hcont.others,
    endsWell_append_stream hactions hdata (.inl rfl) (hinv.context_le hs.lt) hf, hcont.all_idle hctx⟩

end Sys2Proof.Machine
end

section
/-! Proofs: the word of a decoded command is the presented word, so a step that faults records what the host presented
(30_encoding.md R71 to R73, 60_exceptions.md R195). -/

namespace Sys2Proof

variable {r : OpcodeRow} {w : Word} {i : Instr} {op : BitVec 4} {x : Byte}

/-- A row whose mask covers the data byte fixes it. -/
theorem dataField_of_accepts (hm : dataField r.mask = BitVec.allOnes 8) (h : r.accepts w = true) :
    dataField w = dataField r.pattern := by
  have hpattern : w &&& r.mask = r.pattern := by simpa [OpcodeRow.accepts] using h
  calc dataField w = dataField w &&& dataField r.mask := by rw [hm, BitVec.and_allOnes]
    _ = dataField (w &&& r.mask) := BitVec.extractLsb'_and.symm
    _ = dataField r.pattern := by rw [hpattern]

theorem eq_of_accepts_rowInitTables (h : rowInitTables.accepts w = true) : w = 0x1000 := by
  have hpattern : w &&& BitVec.allOnes 16 = 0x1000 := beq_iff_eq.mp h
  rwa [BitVec.and_allOnes] at hpattern

theorem packWord_of_fields (hop : opField w = op) (hx : dataField w = x) : packWord op (contextField w) x = w := by
  rw [← hop, ← hx, packWord_fields]

/-- A command word with data 0 is packed from its opcode and its context. -/
theorem packWord_of_accepts (hr : r ∈ opcodeTable) (hm : dataField r.mask = BitVec.allOnes 8) (h : r.accepts w = true) :
    packWord (opField r.pattern) (contextField w) (dataField r.pattern) = w :=
  packWord_of_fields (opField_of_accepts hr h) (dataField_of_accepts hm h)

/-- A word that decodes is the word of its command (R71, R73). -/
theorem encode_of_decode (h : decode w = .ok i) : encode i = w := by
  unfold decode at h
  split_ifs at h with hinit hnew henc hencEnd hdec hdecEnd <;> cases h
  · exact (eq_of_accepts_rowInitTables hinit).symm
  · exact packWord_of_accepts (r := rowNewState) (by decide) (by decide) hnew
  · exact packWord_of_fields (opField_of_accepts (r := rowEnc) (by decide) henc) rfl
  · exact packWord_of_accepts (r := rowEncEnd) (by decide) (by decide) hencEnd
  · exact packWord_of_fields (opField_of_accepts (r := rowDec) (by decide) hdec) rfl
  · exact packWord_of_accepts (r := rowDecEnd) (by decide) (by decide) hdecEnd

end Sys2Proof

namespace Sys2Proof.Machine

variable {s t : State} {i : Instr} {w : Word}

/-- A faulted block drops every command, so one that is not dropped found no fault (60_exceptions.md R196). -/
theorem unfaulted_of_check {v : Verdict} (h : check i s = v) (hv : v ≠ .drop) : s.faulted = false := by
  simpa using mt check_faulted (h ▸ hv)

/-- Everything a presented word can do: it is dropped, faults with the word recorded, or has its command's effect. -/
theorem runWord_cases (h : runWord w s = .next t) :
    (s.faulted = true ∧ t = s.respond []) ∨
    (s.faulted = false ∧ ∃ c, t = raiseFault c w s) ∨
    (∃ i, decode w = .ok i ∧ check i s = .go ∧ t = effectOf i s) := by
  cases hd : decode w with
  | error e =>
    rcases rejectWord_cases (runWord_error hd ▸ h) with ⟨hf, rfl⟩ | ⟨hf, rfl⟩
    · exact .inl ⟨hf, rfl⟩
    · exact .inr (.inl ⟨hf, _, rfl⟩)
  | ok i =>
    rcases exec_cases (runWord_ok hd ▸ h) with ⟨hdrop, rfl⟩ | ⟨c, hc, rfl⟩ | ⟨hgo, rfl⟩
    · exact .inl ⟨faulted_of_check_drop hdrop, rfl⟩
    · exact .inr (.inl ⟨unfaulted_of_check hc nofun, c, by rw [encode_of_decode hd]⟩)
    · exact .inr (.inr ⟨i, rfl, hgo, rfl⟩)

end Sys2Proof.Machine
end

section
/-! Proofs: what a context command reads and writes (10_state.md R21) and the role it leaves (R26). -/

namespace Sys2Proof.Machine

variable {i : Instr} {k : Nat} {s s' : State}

/-- A context command leaves READY as it was. -/
theorem effectOf_ready (hk : contextOperand i = some k) : (effectOf i s).ready = s.ready := by
  rw [State.ready, effectOf_status hk, State.ready]

/-- Settles O26: a drop and a fault leave the context file, and an executed command writes its own context in it. -/
theorem contextCommandsTouchOnlyTheirContext : Obligations.ContextCommandsTouchOnlyTheirContext := by
  intro i k s t hk h
  rcases exec_cases h with ⟨-, rfl⟩ | ⟨c, hc, rfl⟩ | ⟨-, rfl⟩
  · simp
  · simp [unfaulted_of_check hc nofun]
  · simp only [effectOf_numCtx, effectOf_ready hk, effectOf_alphabet, effectOf_host, effectOf_readData, effectOf_status hk,
      effectOf_faultCmd, and_self, implies_true, and_true]
    exact fun j hj => effectOf_other hk hj

/-- The checks read STATUS, NUM_CTX and the context the command names (60_exceptions.md R194). -/
theorem check_congr (hk : contextOperand i = some k) (hstatus : s.status = s'.status) (hnum : s.numCtx = s'.numCtx)
    (hctx : s.ctx k = s'.ctx k) : check i s = check i s' := by
  have hfaulted : s.faulted = s'.faulted := congrArg statusFaulted hstatus
  have hready : s.ready = s'.ready := congrArg statusReady hstatus
  simp only [check, hk, hfaulted, hready, hnum, hctx]

/-- An accepted context holds what the command left there. -/
theorem effectOf_ctx_same (hk : contextOperand i = some k) (h : k < s.numCtx) :
    (effectOf i s).ctx k = (contextEffect s.alphabet i (s.ctx k)).ctx := by
  rw [effectOf_eq_onContext hk, onContext_eq, respond_ctx, setCtx_ctx_same s k _ h]

theorem effectOf_response (hk : contextOperand i = some k) :
    (effectOf i s).response = (contextEffect s.alphabet i (s.ctx k)).out := by
  rw [effectOf_eq_onContext hk, onContext_eq, respond_response]

/-- Settles O27: the two states pass or fail the same check, and each outcome is made of what they agree on. -/
theorem contextCommandsReadOnlyTheirContext : Obligations.ContextCommandsReadOnlyTheirContext := by
  intro i k s s' t t' hk hstatus hcmd halphabet hnum hctx h h'
  have hcheck := check_congr hk hstatus hnum hctx
  cases hc : check i s with
  | drop =>
    cases (exec_drop hc).symm.trans h
    cases (exec_drop (hcheck ▸ hc)).symm.trans h'
    exact ⟨hstatus, hcmd, hctx, rfl⟩
  | fault cause =>
    cases (exec_fault hc).symm.trans h
    cases (exec_fault (hcheck ▸ hc)).symm.trans h'
    exact ⟨congrArg (statusSetFault cause) hstatus, rfl, hctx, rfl⟩
  | go =>
    cases (exec_go hc).symm.trans h
    cases (exec_go (hcheck ▸ hc)).symm.trans h'
    have hlt := (accepts_of_check_go hk hc).1.lt
    refine ⟨?_, ?_, ?_, ?_⟩
    · rwa [effectOf_status hk, effectOf_status hk]
    · rwa [effectOf_faultCmd, effectOf_faultCmd]
    · rw [effectOf_ctx_same hk hlt, effectOf_ctx_same hk (hnum ▸ hlt), halphabet, hctx]
    · rw [effectOf_response hk, effectOf_response hk, halphabet, hctx]

/-- A command that passes its checks gives its context the role of its effect. -/
theorem exec_role (hk : contextOperand i = some k) (h : s.accepts k) (hr : opposedRole i ≠ some (s.ctx k).role) :
    ∃ t, exec i s = .next t ∧ (t.ctx k).role = (contextEffect s.alphabet i (s.ctx k)).ctx.role :=
  ⟨_, exec_go (check_go hk h hr), by rw [effectOf_ctx_same hk h.lt]⟩

/-- A command of the other direction faults with ROLE_MISUSE (60_exceptions.md R193). -/
theorem exec_roleMisuse (hk : contextOperand i = some k) (h : s.accepts k) (hr : opposedRole i = some (s.ctx k).role) :
    ∃ t, exec i s = .next t ∧ t.faulted = true ∧ t.cause = 4 :=
  ⟨_, exec_fault (check_roleMisuse hk h hr), raiseFault_faulted .., raiseFault_cause ..⟩

/-- Settles O28: a command whose role check passes leaves the role of its effect, and the others fault. -/
theorem roleFollowsTheCommand : Obligations.RoleFollowsTheCommand := by
  intro s k x h
  refine ⟨exec_role rfl h (by simp [opposedRole]), fun hr => ?_, fun hr => ?_, fun hr => ?_, fun hr => ?_⟩
  · have hpass : some Role.decoding ≠ some (s.ctx k).role := by simpa using hr.symm
    exact ⟨exec_role (i := .enc k x) rfl h hpass, exec_role (i := .encEnd k) rfl h hpass⟩
  · have hpass : some Role.encoding ≠ some (s.ctx k).role := by simpa using hr.symm
    have hdec := exec_role (i := .dec k x) rfl h hpass
    simp only [contextEffect, decodeChar_role] at hdec
    exact ⟨hdec, exec_role (i := .decEnd k) rfl h hpass⟩
  · rintro i (rfl | rfl) <;> exact exec_roleMisuse rfl h (congrArg some hr.symm)
  · rintro i (rfl | rfl) <;> exact exec_roleMisuse rfl h (congrArg some hr.symm)

end Sys2Proof.Machine
end

section
/-! Proofs: the contexts after a step: the pending digit (10_state.md R25) and the ranges of queue and count (R23, R24,
R27). -/

namespace Sys2Proof.Machine

variable {s t : State} {i : Instr} {k : Nat} {a : List Byte} {c : Ctx} {w : Word}

/-- A context that exists after a step is legal. -/
theorem step_ctx_ok (h : s.Inv) (hstep : step s = .next t) (hk : k < t.numCtx) : (t.ctx k).Ok :=
  (stepKeepsInvariant s t h hstep).contexts _ (ctx_mem t k hk)

theorem step_numCtx (hstep : step s = .next t) : t.numCtx = s.numCtx :=
  congrArg Params.numCtx (stepKeepsParameters s t hstep)

theorem blockReset_ctx : (blockReset s).ctx k = Ctx.idle := resetWith_ctx (p := s.params)

/-- Only DEC can set a pending digit: every other command clears it on its way to Idle, or is ENC and keeps it. -/
theorem contextEffect_pending (hk : contextOperand i = some k) :
    (∃ x, i = .dec k x) ∨
    ((i = .newState k ∨ i = .encEnd k ∨ i = .decEnd k) ∧ (contextEffect a i c).ctx.pending = none) ∨
    (contextEffect a i c).ctx.pending = c.pending := by
  rcases contextOperand_cases hk with rfl | rfl | rfl | ⟨x, rfl | rfl⟩
  · exact .inr (.inl ⟨.inl rfl, rfl⟩)
  · exact .inr (.inl ⟨.inr (.inl rfl), rfl⟩)
  · exact .inr (.inl ⟨.inr (.inr rfl), rfl⟩)
  · exact .inr (.inr rfl)
  · exact .inl ⟨x, rfl⟩

/-- A context ENC_END is executed on has no pending digit, so there it takes none away. -/
theorem pending_none_of_encEnd (h : s.Inv) (hgo : check (.encEnd k) s = .go) : (s.ctx k).pending = none := by
  obtain ⟨haccepts, hr⟩ := accepts_of_check_go rfl hgo
  exact ((h.contexts _ (ctx_mem s k haccepts.lt)).range_of_not_decoding (by simpa [opposedRole, eq_comm] using hr)).2

/-- Everything a presented word can do to the pending digit of a context. -/
theorem runWord_pending (h : s.Inv) (hw : runWord w s = .next t) (k : Nat) :
    (t.ctx k).pending = (s.ctx k).pending ∨
    (∃ x, decode w = .ok (.dec k x)) ∨
    ((decode w = .ok (.decEnd k) ∨ decode w = .ok (.newState k)) ∧ (t.ctx k).pending = none) := by
  rcases runWord_cases hw with ⟨-, rfl⟩ | ⟨-, cause, rfl⟩ | ⟨i, hd, hgo, rfl⟩
  · exact .inl rfl
  · exact .inl rfl
  · rw [effectOf_ctx hd hgo, ctxAfter, commandTo_command hd]
    by_cases hk : contextOperand i = some k
    · rw [if_pos hk]
      rcases contextEffect_pending hk with ⟨x, rfl⟩ | ⟨rfl | rfl | rfl, hnone⟩ | hsame
      · exact .inr (.inl ⟨x, hd⟩)
      · exact .inr (.inr ⟨.inr hd, hnone⟩)
      · exact .inl (hnone.trans (pending_none_of_encEnd h hgo).symm)
      · exact .inr (.inr ⟨.inl hd, hnone⟩)
      · exact .inl hsame
    · rw [if_neg hk]
      exact .inl rfl

/-- Everything a step can do to the pending digit of a context. -/
theorem step_pending (h : s.Inv) (hstep : step s = .next t) (k : Nat) :
    (t.ctx k).pending = (s.ctx k).pending ∨
    (∃ w rest, s.host = .command w :: rest ∧ ∃ x, decode w = .ok (.dec k x)) ∨
    (∃ w rest, s.host = .command w :: rest ∧ (decode w = .ok (.decEnd k) ∨ decode w = .ok (.newState k)) ∧
      (t.ctx k).pending = none) ∨
    (∃ rest, s.host = .reset :: rest ∧ (t.ctx k).pending = none) := by
  rcases step_cases hstep with ⟨-, rfl⟩ | ⟨w, rest, hhost, hw⟩ | ⟨n, rest, -, hread⟩ | ⟨rest, hhost, rfl⟩
  · exact .inl rfl
  · rcases runWord_pending (withHost_inv h rest) hw k with hsame | hdec | hend
    · exact .inl hsame
    · exact .inr (.inl ⟨w, rest, hhost, hdec⟩)
    · exact .inr (.inr (.inl ⟨w, rest, hhost, hend⟩))
  · obtain ⟨v, -, rfl⟩ := hostRead_cases hread
    exact .inl rfl
  · exact .inr (.inr (.inr ⟨rest, hhost, congrArg Ctx.pending blockReset_ctx⟩))

/-- Settles O29: by what a step can do to the pending digit; that a context which is not Decoding has none is the invariant
after the step. -/
theorem pendingIsDecoderOnly : Obligations.PendingIsDecoderOnly := by
  intro s t j hinv hstep hj
  rw [← and_assoc]
  refine ⟨?_, fun hr => ((step_ctx_ok hinv hstep (step_numCtx hstep ▸ hj)).range_of_not_decoding hr).2⟩
  rcases step_pending hinv hstep j with hsame | ⟨w, rest, hhost, x, hd⟩ | ⟨w, rest, hhost, hd, hnone⟩ |
    ⟨rest, hhost, hnone⟩
  · simp +contextual [hsame]
  · exact ⟨fun _ => ⟨x, w, rest, hhost, hd⟩, fun _ _ => .inr ⟨w, rest, hhost, .inl ⟨x, hd⟩⟩⟩
  · exact ⟨by simp [hnone], fun _ _ => .inr ⟨w, rest, hhost, .inr hd⟩⟩
  · exact ⟨by simp [hnone], fun _ _ => .inl ⟨rest, hhost⟩⟩

/-- Settles O37: the ranges of a legal context, which every context is after a step. -/
theorem contextRangesAfterEveryStep : Obligations.ContextRangesAfterEveryStep := by
  intro s t k hinv hstep hk
  have hok := step_ctx_ok hinv hstep hk
  have queue_lt {n : Nat} (hn : (t.ctx k).bitCount.toNat ≤ n) : (t.ctx k).bitQueue.toNat < 2 ^ n :=
    hok.queueBelow.trans_le (Nat.pow_le_pow_right (by omega) hn)
  refine ⟨fun b hb => Nat.testBit_lt_two_pow (queue_lt hb), fun hr => ?_, fun hr => ?_, fun hr => ?_⟩
  · obtain ⟨hn, -⟩ := hok.encodingRange hr
    exact ⟨hn, queue_lt hn⟩
  · exact ⟨hok.decodingRange hr, queue_lt (hok.decodingRange hr)⟩
  · simp [hok.idleZero hr, Ctx.idle]

end Sys2Proof.Machine
end

section
/-! Proofs: the flags, the host registers and the block reset (10_state.md R30 to R35). -/

namespace Sys2Proof.Machine

variable {s t : State} {n : Nat} {p : Params}

/-- Everything a step can do to the flags: leave them, set READY by INIT_TABLES, set FAULTED by fault entry, or clear both by
the block reset (R33). -/
theorem step_flags (hstep : step s = .next t) :
    (t.ready = s.ready ∧ t.faulted = s.faulted) ∨
    (∃ rest, s.host = .command 0x1000 :: rest ∧ s.faulted = false ∧ t.ready = true ∧ t.faulted = false) ∨
    (∃ w rest, s.host = .command w :: rest ∧ t.faultCmd = w ∧ t.ready = s.ready ∧ t.faulted = true) ∨
    (∃ rest, s.host = .reset :: rest ∧ t.ready = false ∧ t.faulted = false) := by
  rcases step_cases hstep with ⟨-, rfl⟩ | ⟨w, rest, hhost, hw⟩ | ⟨n, rest, -, hread⟩ | ⟨rest, hhost, rfl⟩
  · exact .inl ⟨rfl, rfl⟩
  · rcases runWord_cases hw with ⟨-, rfl⟩ | ⟨-, cause, rfl⟩ | ⟨i, hd, hgo, rfl⟩
    · exact .inl ⟨rfl, rfl⟩
    · exact .inr (.inr (.inl ⟨w, rest, hhost, rfl, raiseFault_ready .., raiseFault_faulted ..⟩))
    · cases hk : contextOperand i with
      | some k => exact .inl ⟨effectOf_ready hk, effectOf_faulted⟩
      | none =>
        cases eq_initTables_of_contextOperand hk
        have hw : w = 0x1000 := (encode_of_decode hd).symm
        have hf := unfaulted_of_check hgo nofun
        exact .inr (.inl ⟨rest, hw ▸ hhost, hf, setReady_ready _, effectOf_faulted.trans hf⟩)
  · obtain ⟨v, -, rfl⟩ := hostRead_cases hread
    exact .inl ⟨rfl, rfl⟩
  · exact .inr (.inr (.inr ⟨rest, hhost, blockReset_ready _, blockReset_faulted _⟩))

/-- Settles O30: each thing a step can do to the flags is one that the statement allows. -/
theorem flagsChangeOnlyAsStated : Obligations.FlagsChangeOnlyAsStated := by
  intro s t hstep
  rcases step_flags hstep with ⟨hready, hfaulted⟩ | ⟨rest, hhost, hf, hready, hfaulted⟩ |
    ⟨w, rest, hhost, hcmd, hready, hfaulted⟩ | ⟨rest, hhost, hready, hfaulted⟩
  · simp +contextual [hready, hfaulted]
  · simp [hready, hfaulted, hf, hhost]
  · simp +contextual [hready, hfaulted, hhost, hcmd]
  · simp [hready, hfaulted, hhost]

/-- The fields of STATUS make up the word (R30). -/
theorem status_toNat (w : Word) :
    w.toNat = (statusReady w).toNat + 2 * (statusFaulted w).toNat + 4 * (statusCause w).toNat +
      32 * (statusReserved w).toNat := by
  have hready : (statusReady w).toNat = w.toNat % 2 := by
    rw [statusReady, BitVec.getLsbD, Nat.toNat_testBit, pow_zero, Nat.div_one]
  have hfaulted : (statusFaulted w).toNat = w.toNat / 2 % 2 := by
    rw [statusFaulted, BitVec.getLsbD, Nat.toNat_testBit, pow_one]
  have hcause : (statusCause w).toNat = w.toNat / 4 % 8 := by simp [statusCause, Nat.shiftRight_eq_div_pow]
  have hreserved : (statusReserved w).toNat = w.toNat / 32 % 2048 := by
    simp [statusReserved, Nat.shiftRight_eq_div_pow]
  have hlt : w.toNat < 65536 := w.isLt
  omega

/-- Settles O31: the reserved field is 0 under the invariant, and the others are bounded. -/
theorem statusWordLayout : Obligations.StatusWordLayout := by
  intro s hinv
  have hword : s.status.toNat = s.ready.toNat + 2 * s.faulted.toNat + 4 * s.cause.toNat := by
    simpa [State.ready, State.faulted, State.cause, hinv.registers.reservedZero] using status_toNat s.status
  have hcause := hinv.registers.causeLegal
  have hready := s.ready.toNat_le
  have hfaulted := s.faulted.toNat_le
  exact ⟨hword, by omega, hcause, hinv.registers.noFault⟩

/-- No host register but 0 and 1 exists (R32). -/
theorem hostRegister_none (h : 2 ≤ n) : hostRegister n s = none := by
  obtain ⟨m, rfl⟩ := Nat.exists_eq_add_of_le' h
  rfl

/-- Settles O32: the port answers for its two registers, and for no other. -/
theorem hostReadReturnsRegister : Obligations.HostReadReturnsRegister := by
  intro s rest
  refine ⟨rfl, rfl, fun n hn => ?_⟩
  simp only [step, hostRead, hostRegister_none hn]

/-- Settles O33: the block reset is the state right after reset for the block's own parameters. -/
theorem resetSetsEveryPieceOfState : Obligations.ResetSetsEveryPieceOfState := by
  refine ⟨fun s rest hhost => ?_, fun p => ⟨rfl, rfl, resetWith_params p, fun k hk => List.getElem?_replicate_of_lt hk⟩⟩
  have hstep : step s = .next (blockReset { s with host := rest }) := by simp only [step, hhost]
  exact ⟨_, hstep, blockReset_status _, blockReset_ready _, blockReset_faulted _, blockReset_faultCmd _,
    step_numCtx hstep, blockReset_alphabet _, fun k hk => List.getElem?_replicate_of_lt hk⟩

/-- Resetting a block that was just reset changes nothing. -/
theorem blockReset_resetWith : blockReset (State.resetWith p) = State.resetWith p := by
  rw [blockReset, resetWith_params]

theorem resetWith_inv (h : p.ok) : (State.resetWith p).Inv := by
  rw [← blockReset_resetWith]
  exact blockReset_inv (by rwa [resetWith_params])

/-- Settles O35: a block right after reset is one that the block reset has put in order. -/
theorem resetHasInvariant : Obligations.ResetHasInvariant :=
  ⟨fun _ h => resetWith_inv h, resetWith_inv (by decide)⟩

end Sys2Proof.Machine
end

section
/-! Proofs: a value shifted in keeps its bits and fits its register (20_memory.md R53, R60). -/

namespace Sys2Proof.Machine

variable {q : Queue} {n m b : Nat} {c : Ctx}

/-- The bits held stay in place, and the value's bits stand just above them (R53, R55). -/
theorem shiftIn_getLsbD {w : Nat} {v : BitVec w} (hq : q.toNat < 2 ^ n) (hw : n + w ≤ 32) :
    (shiftIn q n v).getLsbD b = if b < n then q.getLsbD b else v.getLsbD (b - n) := by
  rw [shiftIn, BitVec.getLsbD_or, BitVec.getLsbD_shiftLeft, BitVec.getLsbD_setWidth]
  split
  case isTrue hb => simp [hb]
  case isFalse hb =>
    have habove : q.getLsbD b = false :=
      Nat.testBit_lt_two_pow (hq.trans_le (Nat.pow_le_pow_right (by omega) (by omega)))
    have hwide : w ≤ b - n → v.getLsbD (b - n) = false := BitVec.getLsbD_of_ge v _
    rw [habove, Bool.false_or]
    by_cases hv : b - n < w
    · simp [hb, (by omega : b < 32), (by omega : b - n < 32)]
    · simp [hwide (by omega)]

/-- Settles O46: each clause reads one branch of `shiftIn_getLsbD`. -/
theorem shiftInIsLeastSignificantFirst : Obligations.ShiftInIsLeastSignificantFirst := by
  intro q n x hq hn
  have hbit (b : Nat) : (shiftIn q n x).getLsbD b = if b < n then q.getLsbD b else x.getLsbD (b - n) :=
    shiftIn_getLsbD hq (by omega)
  refine ⟨fun b hb => ?_, fun b _ => ?_, fun b hb => ?_⟩
  · rw [hbit, if_pos hb]
  · rw [hbit, if_neg (by omega), Nat.add_sub_cancel_left]
  · rw [hbit, if_neg (by omega), BitVec.getLsbD_of_ge x _ (by omega)]

/-- A legal context with `n` bits at most has a queue below 2^n (10_state.md R23). -/
theorem Ctx.Ok.queue_lt (h : c.Ok) (hn : c.bitCount.toNat ≤ n) : c.bitQueue.toNat < 2 ^ n :=
  h.queueBelow.trans_le (Nat.pow_le_pow_right (by omega) hn)

/-- A value of `m` bits shifted into a legal context with `n` bits at most stays below 2^(n + m). -/
theorem Ctx.Ok.shiftIn_lt {w : Nat} {v : BitVec w} (h : c.Ok) (hn : c.bitCount.toNat ≤ n) (hv : v.toNat < 2 ^ m)
    (hw : n + w ≤ 32) : (shiftIn c.bitQueue c.bitCount.toNat v).toNat < 2 ^ (n + m) :=
  (Machine.shiftIn_lt h.queueBelow hv (by omega)).trans_le (Nat.pow_le_pow_right (by omega) (by omega))

/-- Settles O38: 13 held bits and a byte make 21, 7 held bits and a pair value of 14 make 21, and 7 held bits and a digit
make 14. -/
theorem intermediateValuesFit : Obligations.IntermediateValuesFit := by
  intro c h
  refine ⟨fun hr x => ?_, fun hr d0 d1 h0 h1 => ?_⟩
  · obtain ⟨hn, -⟩ := h.range_of_not_decoding hr
    have hq : c.bitQueue.toNat < 2 ^ 13 := h.queue_lt hn
    exact ⟨hn, hq, shiftIn_toNat x h.queueBelow (by omega), h.shiftIn_lt hn x.isLt (by omega), by omega, by omega⟩
  · have hn := h.range_of_not_encoding hr
    have hv := pairValue_toNat d0 d1
    obtain ⟨-, hwidth⟩ := pairWidth_range (pairValue d0 d1)
    exact ⟨hn, hv, by omega, h.shiftIn_lt hn (pairValue d0 d1).isLt (by omega), by omega,
      h.shiftIn_lt hn d0.isLt (by omega)⟩

end Sys2Proof.Machine
end

section
/-! Proofs: no action sees what the host will do next, so a queue of actions is carried out one at a time (20_memory.md R62,
R67, R68). -/

namespace Sys2Proof.Machine

variable {acts : List HostAction} {a : HostAction} {s t : State} {i : Instr} {w : Word}

/-- Settles O8: the first case of a step. -/
theorem blockWaitsForTheHost : Obligations.BlockWaitsForTheHost := by
  intro s hhost
  simp only [step, hhost]

/-- A command's effect leaves the host's plans alone and does not depend on them. -/
theorem effectOf_withHost (rest : List HostAction) :
    effectOf i { s with host := rest } = { effectOf i s with host := rest } := by
  cases i <;> rfl

/-- A command does the same whatever the host plans. -/
theorem exec_withHost (rest : List HostAction) (h : exec i s = .next t) :
    exec i { s with host := rest } = .next { t with host := rest } := by
  have hcheck : check i { s with host := rest } = check i s := rfl
  rcases exec_cases h with ⟨hc, rfl⟩ | ⟨cause, hc, rfl⟩ | ⟨hc, rfl⟩
  · exact exec_drop (hcheck.trans hc)
  · exact exec_fault (hcheck.trans hc)
  · rw [exec_go (hcheck.trans hc), effectOf_withHost]

theorem rejectWord_withHost (rest : List HostAction) (h : rejectWord w s = .next t) :
    rejectWord w { s with host := rest } = .next { t with host := rest } := by
  rcases rejectWord_cases h with ⟨hf, rfl⟩ | ⟨hf, rfl⟩
  · exact if_pos hf
  · exact if_neg (Bool.eq_false_iff.mp hf)

theorem runWord_withHost (rest : List HostAction) (h : runWord w s = .next t) :
    runWord w { s with host := rest } = .next { t with host := rest } := by
  cases hd : decode w with
  | ok i => exact (runWord_ok hd).trans (exec_withHost rest (runWord_ok hd ▸ h))
  | error e => exact (runWord_error hd).trans (rejectWord_withHost rest (runWord_error hd ▸ h))

theorem hostRead_withHost {n : Nat} (rest : List HostAction) (h : hostRead n s = .next t) :
    hostRead n { s with host := rest } = .next { t with host := rest } := by
  obtain ⟨v, hv, rfl⟩ := hostRead_cases h
  have hv' : hostRegister n { s with host := rest } = some v := hv
  simp only [hostRead, hv']

/-- An action with more behind it in the queue does what it does alone, and leaves the others waiting. -/
theorem step_queued (rest : List HostAction) (h : step (s.offer a) = .next t) :
    step { s with host := a :: rest } = .next { t with host := rest } := by
  cases a with
  | command w => exact runWord_withHost (s := { s with host := [] }) rest h
  | readRegister n => exact hostRead_withHost (s := { s with host := [] }) rest h
  | reset =>
    cases h
    rfl

/-- Settles O10: by induction on the actions, each of which leaves the others waiting. -/
theorem queuedActionsRunInOrder : Obligations.QueuedActionsRunInOrder := by
  intro acts
  induction acts with
  | nil =>
    intro s t tr h
    cases h
    rfl
  | cons a rest ih =>
    intro s t tr h
    obtain ⟨u, tr', hstep, hd, -⟩ := drive_cons h
    have hqueued : core.step { s with host := a :: rest } = .next { u with host := rest } := step_queued rest hstep
    simp only [List.length_cons, Host.Core.run, hqueued]
    exact ih u t tr' hd

/-- Carrying out two lists joined is carrying out the first and then, where it ran to its end, the second. -/
theorem drive_append_eq (acts acts' : List HostAction) (s : State) :
    drive (acts ++ acts') s = (drive acts s).bind fun r => (drive acts' r.1).map fun r' => (r'.1, r.2 ++ r'.2) := by
  induction acts generalizing s with
  | nil => simp [drive]
  | cons a rest ih =>
    simp only [List.cons_append, drive]
    cases step (s.offer a) with
    | next t => simp [ih, Option.map_bind, Option.bind_map, Function.comp_def]
    | fault r => rfl
    | refused r => rfl

/-- Settles O49: ENCS and DECS are maps over their bytes, and runs join. -/
theorem chunkingIsInvisible : Obligations.ChunkingIsInvisible := by
  intro k xs ys s
  exact ⟨List.length_map _, List.length_map _, rfl, rfl, fun acts acts' _ => drive_append_eq acts acts' s,
    List.map_append, List.map_append⟩

end Sys2Proof.Machine
end

section
/-! Proofs: what a run does to one context is computed from the commands addressed to it and from nothing else
(20_memory.md R62, R63, R67). -/

namespace Sys2Proof.Machine

variable {acts acts' : List HostAction} {act : HostAction} {a : List Byte} {c : Ctx} {e : CtxEffect} {s t : State}
  {i : Instr} {k : Nat} {tr : Transcript}

/-- What commands do to the one context they name, taken in order: the context they leave and all they emit, or `none` if one
of them is of the other direction. -/
def contextRun (a : List Byte) : List Instr → Ctx → Option CtxEffect
  | [], c => some { ctx := c, out := [] }
  | i :: rest, c =>
    if opposedRole i = some c.role then none
    else (contextRun a rest (contextEffect a i c).ctx).map fun e => { e with out := (contextEffect a i c).out ++ e.out }

theorem contextRun_cons {rest : List Instr} (hr : opposedRole i ≠ some c.role)
    (h : contextRun a rest (contextEffect a i c).ctx = some e) :
    contextRun a (i :: rest) c = some { e with out := (contextEffect a i c).out ++ e.out } := by
  rw [contextRun, if_neg hr, h]
  rfl

theorem contextRun_cons_some {rest : List Instr} (h : contextRun a (i :: rest) c = some e) :
    opposedRole i ≠ some c.role ∧ ∃ e', contextRun a rest (contextEffect a i c).ctx = some e' := by
  rw [contextRun] at h
  split at h
  · cases h
  · rename_i hr
    obtain ⟨e', he, -⟩ := Option.map_eq_some_iff.mp h
    exact ⟨hr, e', he⟩

/-- The commands that a list of actions presents to context `k`. -/
def commandsTo (k : Nat) (acts : List HostAction) : List Instr := acts.filterMap (commandTo k)

theorem commandsTo_filter_addresses (k : Nat) (acts : List HostAction) :
    commandsTo k (acts.filter (addresses k)) = commandsTo k acts := by
  simp only [commandsTo, List.filterMap_filter, addresses_eq_commandTo_isSome]
  congr 1
  funext act
  cases commandTo k act <;> rfl

/-- An action that presents a command to context `k` executes it. -/
theorem step_offer_commandTo (h : commandTo k act = some i) :
    step (s.offer act) = exec i { s with host := [] } := by
  obtain ⟨w, rfl, hd, -⟩ := commandTo_some h
  rw [step_command (offer_host _ _), runWord_ok hd]
  rfl

theorem step_offer_alphabet (h : step (s.offer act) = .next t) : t.alphabet = s.alphabet :=
  congrArg Params.alphabet (stepKeepsParameters _ _ h)

/-- A command to context `k` that raises no fault passed the role check, and its response is its effect's. -/
theorem step_offer_commandTo_unfaulted (hi : commandTo k act = some i) (h : step (s.offer act) = .next t)
    (hf : t.faulted = false) :
    opposedRole i ≠ some (s.ctx k).role ∧ responseTo act t = (contextEffect s.alphabet i (s.ctx k)).out := by
  obtain ⟨w, rfl, -, hk⟩ := commandTo_some hi
  rcases exec_cases (step_offer_commandTo hi ▸ h) with ⟨hdrop, rfl⟩ | ⟨cause, -, rfl⟩ | ⟨hgo, rfl⟩
  · cases (faulted_of_check_drop hdrop).symm.trans hf
  · simp at hf
  · obtain ⟨-, hr⟩ := accepts_of_check_go hk hgo
    exact ⟨hr, effectOf_response hk⟩

/-- A run without a reset that ends without a fault had none at its start (60_exceptions.md R196). -/
theorem drive_unfaulted (hn : NoReset acts) (h : drive acts s = some (t, tr)) (hf : t.faulted = false) :
    s.faulted = false := by
  induction acts generalizing s tr with
  | nil =>
    cases h
    exact hf
  | cons act rest ih =>
    obtain ⟨u, tr', hstep, hd, rfl⟩ := drive_cons h
    obtain ⟨hact, hrest⟩ := List.forall_mem_cons.mp hn
    exact (step_offer_unfaulted hact hstep (ih hrest hd)).1

theorem outputOn_cons_some {out : List Byte} (h : commandTo k act = some i) :
    outputOn k ((act, out) :: tr) = out ++ outputOn k tr := by
  simp [outputOn, output, addresses_eq_commandTo_isSome, h]

theorem outputOn_cons_none {out : List Byte} (h : commandTo k act = none) :
    outputOn k ((act, out) :: tr) = outputOn k tr := by
  simp [outputOn, addresses_eq_commandTo_isSome, h]

/-- A run that ends without a fault leaves in context `k`, and emits for it, what the commands to `k` alone compute. -/
theorem drive_contextRun (hn : NoReset acts) (h : drive acts s = some (t, tr)) (hf : t.faulted = false) :
    contextRun s.alphabet (commandsTo k acts) (s.ctx k) = some { ctx := t.ctx k, out := outputOn k tr } := by
  induction acts generalizing s tr with
  | nil =>
    cases h
    rfl
  | cons act rest ih =>
    obtain ⟨u, tr', hstep, hd, rfl⟩ := drive_cons h
    obtain ⟨hact, hrest⟩ := List.forall_mem_cons.mp hn
    have hu := drive_unfaulted hrest hd hf
    obtain ⟨-, hctx⟩ := step_offer_unfaulted hact hstep hu
    have hrun := ih hrest hd
    rw [hctx k, step_offer_alphabet hstep, ctxAfter] at hrun
    cases hi : commandTo k act with
    | none =>
      rw [hi] at hrun
      rwa [commandsTo, List.filterMap_cons_none hi, outputOn_cons_none hi]
    | some i =>
      rw [hi] at hrun
      obtain ⟨hr, hout⟩ := step_offer_commandTo_unfaulted hi hstep hu
      rw [commandsTo, List.filterMap_cons_some hi, outputOn_cons_some hi, hout]
      exact contextRun_cons hr hrun

/-- Settles O47: both runs leave and emit what the same commands compute from the same context. -/
theorem contextOutputDependsOnItsCommands : Obligations.ContextOutputDependsOnItsCommands := by
  intro acts acts' s t t' tr tr' k hn hn' hsame h h' hf hf'
  have hcommands : commandsTo k acts = commandsTo k acts' := by
    rw [← commandsTo_filter_addresses, hsame, commandsTo_filter_addresses]
  have hrun := drive_contextRun (k := k) hn h hf
  rw [hcommands, drive_contextRun hn' h' hf'] at hrun
  obtain ⟨hctx, hout⟩ := CtxEffect.mk.inj (Option.some.inj hrun)
  exact ⟨hout.symm, hctx.symm⟩

/-- A command that context `k` accepts and that passes the role check executes, and `k` accepts the next one. -/
theorem step_offer_accepted (hi : commandTo k act = some i) (hs : s.accepts k) (hr : opposedRole i ≠ some (s.ctx k).role) :
    ∃ t, step (s.offer act) = .next t ∧ t.accepts k ∧ t.alphabet = s.alphabet ∧
      t.ctx k = (contextEffect s.alphabet i (s.ctx k)).ctx := by
  obtain ⟨-, -, -, hk⟩ := commandTo_some hi
  obtain ⟨hf, hlt, hready⟩ := hs
  have hstep : step (s.offer act) = .next (onContext k (contextEffect s.alphabet i) { s with host := [] }) := by
    rw [step_offer_commandTo hi]
    exact exec_onContext (s := { s with host := [] }) hk ⟨hf, hlt, hready⟩ hr
  refine ⟨_, hstep, ⟨hf, ?_, hready⟩, step_offer_alphabet hstep, setCtx_ctx_same _ k _ hlt⟩
  exact hlt.trans_eq (step_numCtx hstep).symm

/-- Commands that compute an effect from the context run to an end without a fault wherever that context accepts commands. -/
theorem drive_of_contextRun (hk : ∀ act ∈ acts, addresses k act = true) (hs : s.accepts k)
    (hrun : contextRun s.alphabet (commandsTo k acts) (s.ctx k) = some e) :
    ∃ t tr, drive acts s = some (t, tr) ∧ t.faulted = false := by
  induction acts generalizing s e with
  | nil => exact ⟨s, [], rfl, hs.unfaulted⟩
  | cons act rest ih =>
    obtain ⟨hact, hrest⟩ := List.forall_mem_cons.mp hk
    obtain ⟨i, hi⟩ := Option.isSome_iff_exists.mp (addresses_eq_commandTo_isSome ▸ hact)
    rw [commandsTo, List.filterMap_cons_some hi] at hrun
    obtain ⟨hr, e', he⟩ := contextRun_cons_some hrun
    obtain ⟨u, hstep, hu, halphabet, hctx⟩ := step_offer_accepted hi hs hr
    obtain ⟨t, tr, hd, hf⟩ := ih hrest hu (by rwa [halphabet, hctx])
    exact ⟨t, _, drive_of_step hstep hd, hf⟩

/-- Where every action is a command to context `k`, the output on `k` is the whole output. -/
theorem outputOn_of_addresses (hk : ∀ act ∈ acts, addresses k act = true) (h : drive acts s = some (t, tr)) :
    outputOn k tr = output tr := by
  rw [outputOn, List.filter_eq_self.mpr]
  intro e he
  exact hk e.1 (drive_actions h ▸ List.mem_map_of_mem he)

/-- Settles O48: the stream's commands computed an effect from the context in the first run, so they run alone too, and
compute the same effect there. -/
theorem streamOutputDependsOnlyOnItsData : Obligations.StreamOutputDependsOnlyOnItsData := by
  intro acts s s' t tr k bs stream _ _ hn hfilter h hf hs' hctx halphabet
  have haddr : ∀ act ∈ stream, addresses k act = true := by
    intro act hact
    exact (List.mem_filter.mp (hfilter ▸ hact)).2
  have hnoReset : NoReset stream := by
    intro act hact
    exact hn act (List.mem_filter.mp (hfilter ▸ hact)).1
  have hrun : contextRun s'.alphabet (commandsTo k stream) (s'.ctx k) =
      some { ctx := t.ctx k, out := outputOn k tr } := by
    rw [hctx, halphabet, ← hfilter, commandsTo_filter_addresses]
    exact drive_contextRun hn h hf
  obtain ⟨t', tr', hd, hf'⟩ := drive_of_contextRun haddr hs' hrun
  rw [drive_contextRun hnoReset hd hf'] at hrun
  obtain ⟨-, hout⟩ := CtxEffect.mk.inj (Option.some.inj hrun)
  exact ⟨t', tr', hd, hf', outputOn_of_addresses haddr hd ▸ hout⟩

end Sys2Proof.Machine
end

section
/-! Proofs: which words decode, by the rows of the opcode map and by their fields (30_encoding.md R70 to R76). -/

namespace Sys2Proof

open Machine

variable {r : OpcodeRow} {w : Word} {i : Instr} {k : Nat}

/-- Settles O1: the row of the command accepts its word, and the fields of the word are the operands packed in it. -/
theorem decodeOfEncodeIsIdentity : Obligations.DecodeOfEncodeIsIdentity := fun _ => decode_encode

theorem contextField_le (w : Word) : contextField w ≤ 15 := Nat.le_of_lt_succ (w.extractLsb' 8 4).isLt

/-- The context number of a decoded command is a field of four bits. -/
theorem wf_of_decode (h : decode w = .ok i) : i.wf = true := by
  have hfits : contextFits (contextField w) = true := contextFits_iff.mpr (contextField_le w)
  unfold decode at h
  split_ifs at h <;> cases h
  · rfl
  all_goals exact hfits

/-- A word decodes to the one command that it spells. -/
theorem decode_eq_ok_iff : decode w = .ok i ↔ i.wf = true ∧ encode i = w :=
  ⟨fun h => ⟨wf_of_decode h, encode_of_decode h⟩, fun ⟨hwf, hw⟩ => hw ▸ decode_encode hwf⟩

/-- Settles O2: the context number fits its field, and the fields of the word pack to the word again. -/
theorem encodeOfDecodeIsIdentity : Obligations.EncodeOfDecodeIsIdentity := fun _ _ => decode_eq_ok_iff.mp

theorem decode_error_iff : (∃ e, decode w = .error e) ↔ ¬ ∃ i, decode w = .ok i := by
  cases decode w <;> simp

theorem row_mem (i : Instr) : i.row ∈ opcodeTable := by
  cases i <;> simp [Instr.row, opcodeTable]

/-- The word of a command matches the command's row (R72). -/
theorem row_accepts_encode (h : i.wf = true) : i.row.accepts (encode i) = true := by
  cases i with
  | initTables => exact Laws.MatchesItsRow.initTables h
  | newState k => exact Laws.MatchesItsRow.newState k h
  | enc k x => exact Laws.MatchesItsRow.enc k x h
  | encEnd k => exact Laws.MatchesItsRow.encEnd k h
  | dec k x => exact Laws.MatchesItsRow.dec k x h
  | decEnd k => exact Laws.MatchesItsRow.decEnd k h

theorem row_accepts_of_decode (h : decode w = .ok i) : i.row.accepts w = true :=
  encode_of_decode h ▸ row_accepts_encode (wf_of_decode h)

/-- A word that a row accepts decodes to a command of that row (R72). -/
theorem decode_of_accepts (hr : r ∈ opcodeTable) (h : r.accepts w = true) : ∃ i, decode w = .ok i ∧ i.row = r := by
  simp only [opcodeTable, List.mem_cons, List.not_mem_nil, or_false] at hr
  rcases hr with rfl | rfl | rfl | rfl | rfl | rfl
  · exact ⟨_, by rw [decode, if_pos h], rfl⟩
  · exact ⟨_, decode_rowNewState h, rfl⟩
  · exact ⟨_, decode_rowEnc h, rfl⟩
  · exact ⟨_, decode_rowEncEnd h, rfl⟩
  · exact ⟨_, decode_rowDec h, rfl⟩
  · exact ⟨_, decode_rowDecEnd h, rfl⟩

/-- Decoding fails exactly where every row rejects the word (R72). -/
theorem decode_error_iff_rejected : (∃ e, decode w = .error e) ↔ ∀ r ∈ opcodeTable, r.accepts w = false := by
  rw [decode_error_iff]
  constructor
  · intro hnone r hr
    by_contra h
    obtain ⟨i, hi, -⟩ := decode_of_accepts hr (by simpa using h)
    exact hnone ⟨i, hi⟩
  · rintro hreject ⟨i, hi⟩
    simpa [row_accepts_of_decode hi] using hreject i.row (row_mem i)

/-- Settles O3: two rows that accept a word are its command's row, and a command's row is where its word is accepted. -/
theorem opcodeMapDecidesEveryWord : Obligations.OpcodeMapDecidesEveryWord := by
  refine ⟨rfl, fun r w => beq_iff_eq, fun w r hr r' hr' h h' => ?_, fun w i h => ⟨row_mem i, row_accepts_of_decode h⟩,
    fun w r => decode_of_accepts, fun w => decode_error_iff_rejected⟩
  by_contra hne
  simp [rejects_of_accepts h' ⟨hr', hr, hne⟩] at h

/-- The three fields, side by side, are the word (R70). -/
theorem toNat_eq_fields (w : Word) : w.toNat = 4096 * (opField w).toNat + 256 * contextField w + (dataField w).toNat := by
  have := w.isLt
  simp only [opField, contextField, dataField, BitVec.extractLsb'_toNat, Nat.shiftRight_eq_div_pow]
  omega

/-- The context field of a command's word holds the context number the command names (R75). -/
theorem contextField_encode (hk : contextOperand i = some k) (h : k ≤ 15) : contextField (encode i) = k := by
  rcases contextOperand_cases hk with rfl | rfl | rfl | ⟨x, rfl | rfl⟩ <;> exact contextField_packWord _ _ _ h

theorem context_le_of_wf (hk : contextOperand i = some k) (h : i.wf = true) : k ≤ 15 := by
  rcases contextOperand_cases hk with rfl | rfl | rfl | ⟨x, rfl | rfl⟩ <;> exact contextFits_iff.mp h

/-- Settles O4: the word is its command's, packed from the operands. -/
theorem operandsComeFromTheirFields : Obligations.OperandsComeFromTheirFields := by
  intro w i h
  obtain ⟨hwf, rfl⟩ := decode_eq_ok_iff.mp h
  refine ⟨toNat_eq_fields _, fun k hk => ?_, ?_, ?_⟩
  · have hle := context_le_of_wf hk hwf
    exact ⟨(contextField_encode hk hle).symm, hle⟩
  · rintro k x rfl
    exact (dataField_packWord 3 k x).symm
  · rintro k x rfl
    exact (dataField_packWord 5 k x).symm

/-- The words that decode, by their fields (R72, R73). -/
theorem decodes_iff_fields : (∃ i, decode w = .ok i) ↔
    (opField w = 1 ∧ contextField w = 0 ∧ dataField w = 0) ∨
    ((opField w = 2 ∨ opField w = 4 ∨ opField w = 6) ∧ dataField w = 0) ∨ opField w = 3 ∨ opField w = 5 := by
  simp only [decode_eq_ok_iff]
  constructor
  · rintro ⟨i, -, rfl⟩
    cases i <;> simp [encode, contextField_packWord]
  · have hfits : contextFits (contextField w) = true := contextFits_iff.mpr (contextField_le w)
    rintro (⟨hop, hk, hx⟩ | ⟨hop | hop | hop, hx⟩ | hop | hop)
    · exact ⟨.initTables, rfl, (hk ▸ packWord_of_fields hop hx : packWord 1 0 0 = w)⟩
    · exact ⟨.newState _, hfits, packWord_of_fields hop hx⟩
    · exact ⟨.encEnd _, hfits, packWord_of_fields hop hx⟩
    · exact ⟨.decEnd _, hfits, packWord_of_fields hop hx⟩
    · exact ⟨.enc _ _, hfits, packWord_of_fields hop rfl⟩
    · exact ⟨.dec _ _, hfits, packWord_of_fields hop rfl⟩

/-- An unfaulted block takes an illegal word as ILLEGAL_COMMAND (R74). -/
theorem rejectWord_unfaulted {s : State} (h : s.faulted = false) :
    rejectWord w s = .next (raiseFault .illegalCommand w s) := by
  simp [rejectWord, h]

/-- Settles O5: the illegal words are those whose fields are no command's, and a step rejects one with its fault. -/
theorem illegalWordsAreExactlyTheseAndFault : Obligations.IllegalWordsAreExactlyTheseAndFault := by
  refine ⟨fun w => ?_, fun w e rest s he hf hhost => ?_⟩
  · rw [decode_error_iff, decodes_iff_fields]
    bv_omega
  · rw [step_command hhost, runWord_error he]
    exact rejectWord_unfaulted hf

/-- Settles O6: each word is the word of its command, which decodes to it. -/
theorem spelledWordsDecode : Obligations.SpelledWordsDecode := by
  refine ⟨?_, ?_, ?_, ?_, ?_, ?_⟩ <;> exact decode_eq_ok_iff.mpr (by decide)

end Sys2Proof
end

section
/-! Proofs: how many bytes a response has and which (30_encoding.md R80, R81). -/

namespace Sys2Proof.Machine

variable {s t : State} {i : Instr} {k : Nat} {a : List Byte} {x : Byte} {c : Ctx}

/-- The response of a context command is empty, or it is what the command emits from a context that its checks let pass. -/
theorem exec_response {P : List Byte → Prop} (hk : contextOperand i = some k) (h : exec i s = .next t) (hnil : P [])
    (hemit : s.accepts k → opposedRole i ≠ some (s.ctx k).role → P (contextEffect s.alphabet i (s.ctx k)).out) :
    P t.response := by
  rcases exec_cases h with ⟨-, rfl⟩ | ⟨c, -, rfl⟩ | ⟨hgo, rfl⟩
  · exact hnil
  · exact hnil
  · obtain ⟨haccepts, hr⟩ := accepts_of_check_go hk hgo
    rw [effectOf_response hk]
    exact hemit haccepts hr

theorem exec_initTables_response (h : exec .initTables s = .next t) : t.response = [] := by
  rcases exec_cases h with ⟨-, rfl⟩ | ⟨c, -, rfl⟩ | ⟨-, rfl⟩ <;> rfl

/-- A command that leaves the block faulted was dropped or faulted (60_exceptions.md R195, R196). -/
theorem response_of_faulted (h : exec i s = .next t) (hf : t.faulted = true) : t.response = [] := by
  rcases exec_cases h with ⟨-, rfl⟩ | ⟨c, -, rfl⟩ | ⟨hgo, rfl⟩
  · rfl
  · rfl
  · rw [effectOf_faulted, unfaulted_of_check hgo nofun] at hf
    cases hf

/-- The context a command that passes its checks names is legal. -/
theorem State.Inv.ctx_ok (h : s.Inv) (hk : s.accepts k) : (s.ctx k).Ok := h.contexts _ (ctx_mem s k hk.lt)

/-- ENC emits one codeword or nothing (41_encoder.md R132). -/
theorem encodeByte_out_length (h : c.Ok) (hr : c.role ≠ .decoding) :
    (encodeByte a x c).out.length = 0 ∨ (encodeByte a x c).out.length = 2 := by
  by_cases hn : c.bitCount.toNat + 8 ≤ 13
  · exact .inl (by simp [encodeByte_buffers hn])
  · rw [encodeByte_emits (by omega) (h.range_of_not_decoding hr).1]
    exact .inr rfl

theorem role_ne_of_opposedRole {r : Role} (hi : opposedRole i = some r) (hr : opposedRole i ≠ some c.role) : c.role ≠ r :=
  fun h => hr (h ▸ hi)

/-- Settles O24: what each command emits from a legal context, and that drops and faults answer nothing. -/
theorem responseLengths : Obligations.ResponseLengths := by
  intro s t h
  refine ⟨fun he => ?_, fun k he => ?_, fun k x he => ?_, fun k he => ?_, fun k x he => ?_, fun k he => ?_,
    fun i he hf => ?_⟩
  · rw [exec_initTables_response he, List.length_nil]
  · rw [exec_newState_response he, List.length_nil]
  · exact exec_response (P := fun out => out.length = 0 ∨ out.length = 2) rfl he (.inl rfl) fun hs hr =>
      encodeByte_out_length (h.ctx_ok hs) (role_ne_of_opposedRole rfl hr)
  · exact exec_response (P := fun out => out.length ≤ 2) rfl he (by simp) fun _ _ => trailingChars_length _
  · exact exec_response (P := fun out => out.length ≤ 2) rfl he (by simp) fun hs hr =>
      (contextEffect_ok h.alphabet_length (h.ctx_ok hs) hr).short
  · exact exec_response (P := fun out => out.length ≤ 1) rfl he (by simp) fun _ _ => trailingByte_length
  · rw [response_of_faulted he hf, List.length_nil]

/-- Settles O25: the characters of a codeword and the trailing characters are those of digits up to 90. -/
theorem encodingEmitsAlphabetCharacters : Obligations.EncodingEmitsAlphabetCharacters := by
  rintro s t i k h (⟨x, rfl⟩ | rfl) he
  · exact exec_response (P := fun out => ∀ b ∈ out, b ∈ s.alphabet) rfl he (by simp) fun hs hr =>
      encodeByte_out_mem h.alphabet_length (h.ctx_ok hs) (role_ne_of_opposedRole rfl hr)
  · exact exec_response (P := fun out => ∀ b ∈ out, b ∈ s.alphabet) rfl he (by simp) fun hs hr =>
      finishEncoding_out_mem h.alphabet_length (h.ctx_ok hs) (role_ne_of_opposedRole rfl hr)

end Sys2Proof.Machine
end

section
/-! Proofs: the adaptive width of codewords (30_encoding.md R83, R84). -/

namespace Sys2Proof.Machine

variable {v : PairValue}

/-- The decoder reads a codeword in the width in which the encoder took it (R84). -/
theorem pairWidth_takeCodeword (q : Queue) : pairWidth (takeCodeword q) = takeWidth q := by
  rw [pairWidth_eq, takeWidth_eq, takeCodeword_toNat]
  split
  case isTrue h => rw [Nat.mod_mod, if_pos h]
  case isFalse h => rw [Nat.mod_mod_of_dvd _ (by decide), if_neg h]

/-- A codeword is the low bits of the queue, as many as its width says (41_encoder.md R133). -/
theorem takeCodeword_eq_mod (q : Queue) : (takeCodeword q).toNat = q.toNat % 2 ^ takeWidth q := by
  rw [takeCodeword_toNat, takeWidth_eq]
  split <;> rfl

/-- 13 bits are exactly those of 89..8191 (R84). -/
theorem pairWidth_eq_13_iff (h : v.toNat ≤ 8280) : pairWidth v = 13 ↔ 89 ≤ v.toNat ∧ v.toNat ≤ 8191 := by
  rw [pairWidth_eq]
  split <;> omega

/-- From a queue that holds just a pair value, the encoder takes that value. -/
theorem takeCodeword_setWidth (h : v.toNat ≤ 8280) : takeCodeword (v.setWidth 32) = v := by
  apply BitVec.eq_of_toNat_eq
  rw [takeCodeword_toNat, BitVec.toNat_setWidth, Nat.mod_eq_of_lt (a := v.toNat) (by omega)]
  split <;> omega

/-- A pair value is the value of its two digits, the low one first (R82). -/
theorem pairValue_digits (h : v.toNat ≤ 8280) :
    pairValue (BitVec.ofNat 7 (v.toNat % 91)) (BitVec.ofNat 7 (v.toNat / 91)) = v := by
  apply BitVec.eq_of_toNat_eq
  rw [pairValue_toNat, BitVec.toNat_ofNat, BitVec.toNat_ofNat]
  omega

/-- Settles O45: the encoder's width is the decoder's, which 89..8191 decide. -/
theorem adaptiveWidthAgrees : Obligations.AdaptiveWidthAgrees := by
  refine ⟨fun q => ?_, fun v h => ⟨_, takeCodeword_setWidth h⟩, fun v h => ⟨_, _, ?_, ?_, pairValue_digits h⟩,
    fun v => pairWidth_eq_13_iff⟩
  · have hle := takeCodeword_le q
    have hiff := pairWidth_eq_13_iff hle
    rw [pairWidth_takeCodeword] at hiff
    exact ⟨hle, (pairWidth_takeCodeword q).symm, takeCodeword_eq_mod q, hiff.mp, by omega⟩
  · rw [BitVec.toNat_ofNat]
    omega
  · rw [BitVec.toNat_ofNat]
    omega

end Sys2Proof.Machine
end

section
/-! Proofs: the assembler emits the words of well-formed commands (30_encoding.md R78, R79). -/

namespace Sys2Proof.Machine

variable {l : AsmLine} {is : List Instr} {ws : List Word} {i : Instr} {w : Word}

/-- The commands of a line fit their encoding, since the assembler rejects larger context numbers (R78). -/
theorem wf_of_expand (h : l.expand = some is) (hi : i ∈ is) : i.wf = true := by
  cases l with
  | initTables =>
    cases h
    rw [List.mem_singleton.mp hi, Instr.wf]
  | newState k | encEnd k | decEnd k =>
    obtain ⟨hk, h⟩ := Option.ite_none_right_eq_some.mp h
    cases h
    rw [List.mem_singleton.mp hi]
    exact contextFits_iff.mpr hk
  | enc k x | dec k x =>
    obtain ⟨⟨hk, -⟩, h⟩ := Option.ite_none_right_eq_some.mp h
    cases h
    rw [List.mem_singleton.mp hi]
    exact contextFits_iff.mpr hk
  | encs k bs | decs k bs =>
    obtain ⟨hk, h⟩ := Option.ite_none_right_eq_some.mp h
    cases h
    obtain ⟨b, -, rfl⟩ := List.mem_map.mp hi
    exact contextFits_iff.mpr hk

/-- Every word of a line decodes to a command of the line. -/
theorem decode_of_assemble (h : l.assemble = some ws) (hw : w ∈ ws) : ∃ i, decode w = .ok i ∧ i.wf = true := by
  obtain ⟨is, his, rfl⟩ := Option.map_eq_some_iff.mp h
  obtain ⟨i, hi, rfl⟩ := List.mem_map.mp hw
  have hwf := wf_of_expand his hi
  exact ⟨i, decode_encode hwf, hwf⟩

/-- Settles O54: each line's operands pass or fail their range check, and a line that passes is encoded by the opcode map. -/
theorem assemblerEncodesLines : Obligations.AssemblerEncodesLines := by
  refine ⟨rfl, fun k hk => ?_, fun k x hk => ?_, fun k x hx => ?_, fun l ws h w => decode_of_assemble h⟩
  · have hbyte (x : Byte) : x.toNat ≤ 0xFF := Nat.le_of_lt_succ x.isLt
    simp [AsmLine.assemble, AsmLine.expand, hk, hbyte, encs, decs, present]
  · simp [AsmLine.assemble, AsmLine.expand, Nat.not_le.mpr hk]
  · simp [AsmLine.assemble, AsmLine.expand, Nat.not_le.mpr hx]

end Sys2Proof.Machine
end

section
/-! Proofs: the table ROM (40_tables.md R101 to R113). -/

namespace Sys2Proof.Machine

variable {a : List Byte} {b c0 c1 x : Byte} {d d0 d1 : Digit} {v : PairValue} {c : Ctx}

/-- A digit is found again from its character, since no other digit has that character (R101). -/
theorem charToDigit_digitToChar {n : Nat} (ha : a.Nodup) (h : n < a.length) :
    charToDigit a (digitToChar a n) = some (BitVec.ofNat 7 n) := by
  have hidx : a.idxOf? a[n] = some n :=
    List.idxOf?_eq_some_iff.mpr ⟨h, rfl, fun j hj heq => hj.ne (ha.getElem_inj_iff.mp heq)⟩
  rw [digitToChar_of_lt h, charToDigit, hidx, Option.map_some]

/-- A byte that has a digit is the character of that digit. -/
theorem digitToChar_of_charToDigit (ha : a.length = Config.base) (h : charToDigit a b = some d) :
    digitToChar a d.toNat = b := by
  obtain ⟨n, hn, rfl⟩ := Option.map_eq_some_iff.mp h
  obtain ⟨hlt, hb, -⟩ := List.idxOf?_eq_some_iff.mp hn
  rw [BitVec.toNat_ofNat, Nat.mod_eq_of_lt (by rw [ha, Config.base] at hlt; omega), digitToChar_of_lt hlt, hb]

/-- A byte has no digit exactly if it is no character of the alphabet. -/
theorem charToDigit_eq_none_iff : charToDigit a b = none ↔ b ∉ a :=
  Option.map_eq_none_iff.trans List.idxOf?_eq_none_iff

/-- Settles O40: each digit is found from its character, and a byte that has a digit is its character. -/
theorem alphabetIsBijective : Obligations.AlphabetIsBijective := by
  rintro p ⟨hlength, hnodup, -⟩
  have found (n : Nat) (hn : n ≤ 90) : charToDigit p.alphabet (digitToChar p.alphabet n) = some (BitVec.ofNat 7 n) :=
    charToDigit_digitToChar hnodup (by rw [hlength, Config.base]; omega)
  refine ⟨found, fun b d => ⟨fun h => ⟨charToDigit_le hlength h, digitToChar_of_charToDigit hlength h⟩, ?_⟩,
    fun b => ⟨?_, fun h => ?_⟩⟩
  · rintro ⟨hd, rfl⟩
    rw [found _ hd, BitVec.ofNat_toNat, BitVec.setWidth_eq]
  · rintro h n hn rfl
    cases h.symm.trans (found n hn)
  · rw [Option.eq_none_iff_forall_ne_some]
    exact fun d hd => h d.toNat (charToDigit_le hlength hd) (digitToChar_of_charToDigit hlength hd)

/-- Characters with consecutive codes `lo` to `hi` that stand in a row in the alphabet, the first at `first`, have consecutive
digits (R104). -/
theorem charToDigit_of_range {lo hi first : Nat} (ha : a.Nodup)
    (hrow : ∀ j ≤ hi - lo, a[first + j]? = some (BitVec.ofNat 8 (lo + j))) (h : lo ≤ b.toNat ∧ b.toNat ≤ hi) :
    charToDigit a b = some (BitVec.ofNat 7 (b.toNat - lo + first)) := by
  obtain ⟨hlo, hhi⟩ := h
  have hb := hrow (b.toNat - lo) (by omega)
  rw [Nat.add_comm first, Nat.add_sub_cancel' hlo, BitVec.ofNat_toNat, BitVec.setWidth_eq] at hb
  obtain ⟨hlt, hget⟩ := List.getElem?_eq_some_iff.mp hb
  rw [← charToDigit_digitToChar ha hlt, digitToChar_of_lt hlt, hget]

/-- The characters of the default alphabet lie between 0x21 and 0x7E, without 0x27, 0x2D and 0x5C (R103). -/
theorem classicAlphabet_range : ∀ b ∈ Config.classicAlphabet,
    0x20 < b.toNat ∧ b.toNat < 0x7F ∧ b.toNat ≠ 0x27 ∧ b.toNat ≠ 0x2D ∧ b.toNat ≠ 0x5C := by decide

/-- Settles O41: each range of R104 is a row of consecutive characters in the default alphabet, and the bytes in no range are
not in it. -/
theorem defaultCharToDigitRanges : Obligations.DefaultCharToDigitRanges := by
  intro b
  have hnodup : Config.classicAlphabet.Nodup := by decide
  have single {n : Nat} (h : b.toNat = n) : b = BitVec.ofNat 8 n := by rw [← h, BitVec.ofNat_toNat, BitVec.setWidth_eq]
  refine ⟨fun h => ?_, fun h => ?_, charToDigit_of_range hnodup (by decide), charToDigit_of_range hnodup (by decide),
    charToDigit_of_range hnodup (by decide), charToDigit_of_range hnodup (by decide),
    charToDigit_of_range hnodup (by decide), charToDigit_of_range (first := 0) hnodup (by decide), fun h => ?_,
    charToDigit_of_range hnodup (by decide), charToDigit_of_range hnodup (by decide),
    charToDigit_of_range hnodup (by decide), fun h => ?_⟩
  · rw [single h]
    decide
  · rw [single h]
    decide
  · rw [single h]
    decide
  · refine charToDigit_eq_none_iff.mpr fun hmem => ?_
    have hrange := classicAlphabet_range b hmem
    omega

/-- Two characters in a word stand side by side, the first below (20_memory.md R56, R57). -/
theorem packChars_eq_append : packChars c0 c1 = c1 ++ c0 := by
  rw [packChars, BitVec.append_def, BitVec.shiftLeftZeroExtend_eq, BitVec.setWidth'_eq, BitVec.or_comm]

@[simp] theorem packChars_low : (packChars c0 c1).extractLsb' 0 8 = c0 := by
  rw [packChars_eq_append, BitVec.extractLsb'_append_eq_right]

@[simp] theorem packChars_high : (packChars c0 c1).extractLsb' 8 8 = c1 := by
  rw [packChars_eq_append, BitVec.extractLsb'_append_eq_left]

theorem packChars_toNat : (packChars c0 c1).toNat = c0.toNat + 256 * c1.toNat := by
  rw [packChars_eq_append, BitVec.toNat_append, ← Nat.shiftLeft_add_eq_or_of_lt c0.isLt, Nat.shiftLeft_eq]
  omega

/-- The defined entries of ENCODE_PAIR (R107). -/
theorem encodePair_of_le (h : v.toNat ≤ 8280) :
    encodePair a v = packChars (digitToChar a (v.toNat % 91)) (digitToChar a (v.toNat / 91)) := if_pos h

/-- The defined entries of DECODE_PAIR (R110). -/
theorem decodePair_packChars (h0 : charToDigit a c0 = some d0) (h1 : charToDigit a c1 = some d1) :
    decodePair a (packChars c0 c1) = pairValue d0 d1 := by
  simp only [decodePair, packChars_low, packChars_high, h0, h1]

/-- Settles O42: each byte of an ENCODE_PAIR entry is one of its characters, and a DECODE_PAIR entry is the value of its
characters' digits. -/
theorem pairTableContents : Obligations.PairTableContents := by
  refine fun a => ⟨fun v h => ?_, fun c0 c1 d0 d1 h0 h1 => ⟨packChars_toNat, ?_⟩⟩
  · rw [encodePair_of_le h]
    exact ⟨packChars_low, packChars_high⟩
  · rw [decodePair_packChars h0 h1, pairValue_toNat]

/-- Settles O43: the entry's characters give back the value's two digits. -/
theorem pairTablesRoundTrip : Obligations.PairTablesRoundTrip := by
  rintro p ⟨hlength, hnodup, -⟩ v h
  rw [Config.base] at hlength
  rw [encodePair_of_le h, decodePair_packChars (charToDigit_digitToChar hnodup (by omega))
    (charToDigit_digitToChar hnodup (by omega)), pairValue_digits h]

/-- DEC with a digit pending completes the pair (42_decoder.md R152). -/
theorem decodeChar_pair (hx : charToDigit a x = some d1) (hp : c.pending = some d0) :
    decodeChar a x c = mergePair (pairValue d0 d1) c := by
  simp only [decodeChar, hx, hp]

/-- Settles O44: the encoder takes no codeword above 8280, so its ENCODE_PAIR entry is defined, and the decoder's two
characters have digits, so their DECODE_PAIR entry is. -/
theorem tablesAgreeWithArithmetic : Obligations.TablesAgreeWithArithmetic := by
  refine fun a => ⟨fun q => ?_, fun x c0 first dig c h0 hx hp => ?_⟩
  · rw [encodePair_of_le (takeCodeword_le q), packChars_low, packChars_high, pairChars]
  · rw [decodeChar_pair hx hp, decodePair_packChars h0 hx]

end Sys2Proof.Machine
end

section
/-! Proofs: the lifecycle commands (40_tables.md R120, R121), with the terms every command's statement is made of: its word,
its faults, and the state after it. -/

open Sys2Proof.Claims

namespace Sys2Proof.Machine

variable {i : Instr} {k : Nat} {s : State} {w : Word} {op : BitVec 4} {x : Byte}

/-- A packed word as a number (30_encoding.md R70). -/
theorem packWord_eq_iff (h : k ≤ 15) : packWord op k x = w ↔ w.toNat = 4096 * op.toNat + 256 * k + x.toNat := by
  rw [← BitVec.toNat_inj, toNat_eq_fields (packWord op k x), opField_packWord, contextField_packWord _ _ _ h,
    dataField_packWord, eq_comm]

/-- A word spells a command on context `k` exactly if it is that command's word and `k` fits its field (R75). -/
theorem decode_eq_ok_context_iff (hk : contextOperand i = some k) (he : encode i = packWord op k x) :
    decode w = .ok i ↔ k ≤ 15 ∧ w.toNat = 4096 * op.toNat + 256 * k + x.toNat := by
  have hwf : i.wf = true ↔ k ≤ 15 := ⟨context_le_of_wf hk, wf_of_contextOperand hk⟩
  rw [decode_eq_ok_iff, he, hwf]
  exact and_congr_right packWord_eq_iff

/-- Every context command takes the first fault that applies (60_exceptions.md R194). -/
theorem faultsAsChecked (hk : contextOperand i = some k) : FaultsAsChecked i k (opposedRole i) s :=
  ⟨fun h => exec_drop (check_faulted h), fun hf h => exec_fault (check_badContext hk hf h),
    fun hf hn h => exec_fault (check_notReady hk hf hn h), fun hs hr => exec_fault (check_roleMisuse hk hs hr)⟩

/-- A context command that passes its checks leaves its effect behind, and nothing else differs. -/
theorem exec_after (hk : contextOperand i = some k) (hs : s.accepts k) (hr : opposedRole i ≠ some (s.ctx k).role) :
    exec i s = .next (After s k (contextEffect s.alphabet i (s.ctx k)).ctx (contextEffect s.alphabet i (s.ctx k)).out) :=
  exec_onContext hk hs hr

/-- Writing back the context that is there changes nothing. -/
theorem after_ctx_self (out : List Byte) (hk : k < s.numCtx) : After s k (s.ctx k) out = { s with response := out } := by
  have hlt : k < s.ctxs.length := hk
  rw [After, State.ctx, List.getD_eq_getElem s.ctxs _ hlt, List.set_getElem_self]

/-- Setting READY again changes nothing (R120). -/
theorem setReady_of_ready (h : s.ready = true) : s.setReady = s := by
  rw [State.setReady, statusSetReady_of_ready _ h]

/-- Settles O17: INIT_TABLES has no check but the first, and its effect writes READY alone. -/
theorem initTablesSetsReady : Obligations.InitTablesSetsReady := by
  refine ⟨fun w => decode_eq_ok_iff.trans ?_, fun s h => exec_drop (check_faulted h), fun s h => ?_⟩
  · exact ⟨fun ⟨_, hw⟩ => hw.symm, fun hw => ⟨rfl, hw.symm⟩⟩
  · refine ⟨_, exec_go (check_initTables h), setReady_ready s, rfl, effectOf_faulted.trans h, setReady_cause s,
      statusSetReady_reserved s.status, rfl, rfl, rfl, rfl, rfl, fun hready => ?_⟩
    exact congrArg (State.respond · []) (setReady_of_ready hready)

/-- Settles O18: NEW_STATE has no opposed role, and its effect is the Idle context. -/
theorem newStateMakesContextIdle : Obligations.NewStateMakesContextIdle := by
  intro k s
  have executes (hs : s.accepts k) : exec (.newState k) s = .next (After s k Ctx.idle []) :=
    exec_after rfl hs nofun
  refine ⟨fun w => decode_eq_ok_context_iff (op := 2) (x := 0) rfl rfl, faultsAsChecked rfl, executes, fun hinv hs hr => ?_⟩
  rw [executes hs, ← (hinv.ctx_ok hs).idleZero hr, after_ctx_self [] hs.lt]

end Sys2Proof.Machine
end

section
/-! Proofs: a stream that NEW_STATE drops stays dropped (40_tables.md R121, 70_reset_and_hazards.md R233, R237). -/

open Sys2Proof.Claims

namespace Sys2Proof.Machine

variable {a : HostAction} {i : Instr} {k : Nat} {bytes : List Byte} {tr : Transcript} {t : State} {n : StreamName}
  {r : StreamRecord} {claimed : List StreamName}

/-- A claim about a stream that was not finalized has no good end. -/
theorem not_endsWell_of_ending (hr : streamNamed n tr = some r) (hend : r.ending ≠ .finalized) (hn : n ∈ claimed) :
    ¬ EndsWell claimed tr t := by
  rintro ⟨hall, -⟩
  obtain ⟨r', hr', hfin⟩ := finalized_iff.mp (hall n hn)
  cases hr.symm.trans hr'
  exact hend hfin

theorem commandTo_present (hk : contextOperand i = some k) (h : k ≤ 15) : commandTo k (present i) = some i := by
  rw [present, commandTo_command (decode_encode (wf_of_contextOperand hk h)), if_pos hk]

/-- NEW_STATE gives the stream in progress its end: it is the next closed stream, and abandoned. -/
theorem streamNamed_abandoned (h : InProgress k tr) (ha : commandTo k a = some (.newState k)) :
    ∃ r, streamNamed { context := k, index := (closedStreams k tr).length } (tr ++ [(a, bytes)]) = some r ∧
      r.ending = .abandoned := by
  obtain ⟨cmds, out, happend⟩ := streamsOn_append k tr
  have hnow : streamsOn k tr = closedStreams k tr ++ streamsFrom cmds out [] := by
    simpa [commandsOn] using happend [] (by simp)
  have hcmds : cmds ≠ [] := by
    rintro rfl
    rw [InProgress, hnow, getLast_unfinished_append fun r => closedStreams_ended] at h
    simp at h
  have hreset : a ≠ .reset := by
    rintro rfl
    cases ha
  refine ⟨{ commands := cmds, output := out, ending := .abandoned }, ?_, rfl⟩
  rw [streamNamed, happend _ (by simpa using hreset), commandsOn_singleton_some ha, streamsFrom_newState hcmds]
  simp

/-- Settles O57: NEW_STATE is accepted in every role and abandons the stream, which keeps its name and its end until the next
reset. -/
theorem droppedStreamNeverEndsWell : Obligations.DroppedStreamNeverEndsWell := by
  intro s k before hk hs hopen
  have hto : commandTo k (present (.newState k)) = some (.newState k) := commandTo_present rfl hk
  obtain ⟨u, hstep, hu, -, hctx⟩ := step_offer_accepted hto hs nofun
  refine ⟨u, _, drive_of_step hstep rfl, hu.unfaulted, ?_, fun acts t tr' hn hd claimed hmem => ?_⟩
  · simp [State.unflushed, hctx, contextEffect, newContext, Ctx.idle]
  · obtain ⟨r, hr, hend⟩ := streamNamed_abandoned hopen hto
    have hlater := streamNamed_append hr (by simp [hend]) (drive_noReset hn hd)
    exact not_endsWell_of_ending hlater (by simp [hend]) hmem

end Sys2Proof.Machine
end

section
/-! Proofs: ENC in plain arithmetic (41_encoder.md R131), and how often the loops of ENC and DEC run (R132, 42_decoder.md
R153). -/

open Sys2Proof.Claims

namespace Sys2Proof.Machine

variable {a : List Byte} {x : Byte} {c : Ctx} {v : PairValue}

/-- A value placed above the held bits is a sum (20_memory.md R53). -/
theorem shiftIn_eq_ofNat {w n : Nat} {q : Queue} (v : BitVec w) (hq : q.toNat < 2 ^ n) (hw : n + w ≤ 32) :
    shiftIn q n v = BitVec.ofNat 32 (q.toNat + v.toNat * 2 ^ n) := by
  rw [← shiftIn_toNat v hq hw, BitVec.ofNat_toNat, BitVec.setWidth_eq]

/-- Taking bits off the low end is a division. -/
theorem shiftRight_eq_ofNat (q : Queue) (m : Nat) : q >>> m = BitVec.ofNat 32 (q.toNat / 2 ^ m) := by
  rw [← shiftRight_toNat, BitVec.ofNat_toNat, BitVec.setWidth_eq]

/-- ENC that buffers its byte leaves the sum in the queue. -/
theorem encodeByte_buffers_sum (h : c.Ok) (hr : c.role ≠ .decoding) (hn : c.bitCount.toNat + 8 ≤ 13) :
    encodeByte a x c =
      { ctx := ctxOf (c.bitQueue.toNat + x.toNat * 2 ^ c.bitCount.toNat) (c.bitCount.toNat + 8) none .encoding
        out := [] } := by
  obtain ⟨-, hpending⟩ := h.range_of_not_decoding hr
  rw [encodeByte_buffers hn, hpending, shiftIn_eq_ofNat x h.queueBelow (by omega), ctxOf]

/-- ENC that emits a codeword of `m` bits divides the sum by `2 ^ m`: the remainder leaves as two digits, the quotient
stays. -/
theorem encodeByte_emits_mod {q m : Nat} (h : c.Ok) (hr : c.role ≠ .decoding) (hn : 13 < c.bitCount.toNat + 8)
    (hq : q = c.bitQueue.toNat + x.toNat * 2 ^ c.bitCount.toNat) (hm : m = if q % 8192 > 88 then 13 else 14) :
    encodeByte a x c =
      { ctx := ctxOf (q / 2 ^ m) (c.bitCount.toNat + 8 - m) none .encoding
        out := [digitToChar a (q % 2 ^ m % 91), digitToChar a (q % 2 ^ m / 91)] } := by
  obtain ⟨hcount, hpending⟩ := h.range_of_not_decoding hr
  have hsum : (shiftIn c.bitQueue c.bitCount.toNat x).toNat = q := hq ▸ shiftIn_toNat x h.queueBelow (by omega)
  have hwidth : takeWidth (shiftIn c.bitQueue c.bitCount.toNat x) = m := by rw [takeWidth_eq, hsum, hm]
  simp only [encodeByte_emits hn hcount, hpending, pairChars, takeCodeword_eq_mod, shiftRight_eq_ofNat, hsum, hwidth, ctxOf]

theorem opposedRole_ne_of_role_ne {r : Role} {i : Instr} (hi : opposedRole i = some r) (hr : c.role ≠ r) :
    opposedRole i ≠ some c.role :=
  fun h => hr (Option.some.inj (h.symm.trans hi))

/-- Settles O19: the cases of R131 are those of the loop, and the width of the codeword is what its low 13 bits say. -/
theorem encConsumesOneByte : Obligations.EncConsumesOneByte := by
  intro k x s
  refine ⟨fun w => decode_eq_ok_context_iff (op := 3) rfl rfl, faultsAsChecked rfl, fun hinv hs hr => ?_⟩
  intro n q pair
  have hctx := hinv.ctx_ok hs
  rw [exec_after rfl hs (opposedRole_ne_of_role_ne rfl hr), contextEffect]
  split
  case isTrue hn => rw [encodeByte_buffers_sum hctx hr hn]
  case isFalse hn =>
    split
    case isTrue hq => rw [encodeByte_emits_mod (m := 13) hctx hr (not_le.mp hn) rfl (if_pos hq).symm]; rfl
    case isFalse hq => rw [encodeByte_emits_mod (m := 14) hctx hr (not_le.mp hn) rfl (if_neg hq).symm]; rfl

/-- The decoder's loop takes the whole bytes and leaves the rest of the bits (42_decoder.md R152, R153). -/
theorem drainBytes_counts {fuel n : Nat} (h : n ≤ fuel) (q : Queue) :
    (drainBytes fuel q n).out.length = n / 8 ∧ (drainBytes fuel q n).count = n % 8 := by
  induction fuel generalizing n q with
  | zero => simp [drainBytes, Nat.le_zero.mp h]
  | succ fuel ih =>
    by_cases hn : n < 8
    · rw [drainBytes_done _ q hn]
      exact ⟨(Nat.div_eq_of_lt hn).symm, (Nat.mod_eq_of_lt hn).symm⟩
    · obtain ⟨hout, hcount⟩ := ih (n := n - 8) (by omega) (q >>> 8)
      rw [drainBytes_more q (not_lt.mp hn), List.length_cons, hout, hcount]
      omega

/-- A completed pair emits the whole bytes of its bits and leaves the rest (R152). -/
theorem mergePair_counts : (mergePair v c).out.length = (c.bitCount.toNat + pairWidth v) / 8 ∧
    (mergePair v c).ctx.bitCount.toNat = (c.bitCount.toNat + pairWidth v) % 8 := by
  obtain ⟨hout, hcount⟩ := drainBytes_counts (n := c.bitCount.toNat + pairWidth v) le_rfl
    (shiftIn c.bitQueue c.bitCount.toNat v)
  refine ⟨hout, ?_⟩
  rw [mergePair, hcount, toNat_ofNat_count (by omega)]

/-- A codeword that leaves an encoding context takes it to 8 bits at most (41_encoder.md R132). -/
theorem encodeByte_emits_bounds (hn : 13 < c.bitCount.toNat + 8) (hc : c.bitCount.toNat ≤ 13) :
    (encodeByte a x c).out.length = 2 ∧ (encodeByte a x c).ctx.bitCount.toNat ≤ 8 := by
  obtain ⟨hlo, -⟩ := takeWidth_range (shiftIn c.bitQueue c.bitCount.toNat x)
  rw [encodeByte_emits hn hc]
  exact ⟨rfl, (toNat_ofNat_count (by omega)).trans_le (by omega)⟩

/-- Settles O39: ENC adds 8 bits to 13 at most and a completed pair adds 13 or 14 to 7 at most, so each loop ends after the
passes that the bounds allow. -/
theorem loopsAreBounded : Obligations.LoopsAreBounded := by
  intro a c h
  refine ⟨fun hr x => ?_, fun hr v => ?_⟩
  · obtain ⟨hcount, -⟩ := h.range_of_not_decoding hr
    exact ⟨by omega, fun hn => by rw [encodeByte_buffers hn], fun hn => encodeByte_emits_bounds hn hcount⟩
  · have hcount := h.range_of_not_encoding hr
    obtain ⟨hlo, hhi⟩ := pairWidth_range v
    obtain ⟨hout, hleft⟩ := mergePair_counts (v := v) (c := c)
    omega

end Sys2Proof.Machine
end

section
/-! Proofs: DEC in plain arithmetic (42_decoder.md R151, R152). -/

open Sys2Proof.Claims

namespace Sys2Proof.Machine

variable {a : List Byte} {x : Byte} {c : Ctx} {d : Digit} {v : PairValue}

/-- DEC skips a byte outside the alphabet (R151). -/
theorem decodeChar_skip (hx : charToDigit a x = none) :
    decodeChar a x c = { ctx := { c with role := .decoding }, out := [] } := by
  simp only [decodeChar, hx]

/-- DEC keeps the first digit of a pair (R152). -/
theorem decodeChar_first (hx : charToDigit a x = some d) (hp : c.pending = none) :
    decodeChar a x c = { ctx := { c with pending := some d, role := .decoding }, out := [] } := by
  simp only [decodeChar, hx, hp]

theorem low8_eq_ofNat (q : Queue) : q.extractLsb' 0 8 = BitVec.ofNat 8 q.toNat := rfl

/-- A completed pair that leaves fewer than 16 bits in all emits the sum's low byte. -/
theorem mergePair_one_byte {q n : Nat} (hq : (shiftIn c.bitQueue c.bitCount.toNat v).toNat = q)
    (hn : c.bitCount.toNat + pairWidth v = n) (hlo : 8 ≤ n) (hhi : n < 16) :
    mergePair v c = { ctx := ctxOf (q / 256) (n - 8) none .decoding, out := [BitVec.ofNat 8 q] } := by
  simp only [mergePair, hn, drainBytes_once _ (by omega : 0 < n) hlo hhi, low8_eq_ofNat, shiftRight_eq_ofNat, hq, ctxOf,
    Nat.reducePow]

/-- A completed pair that makes 16 bits or more emits the sum's two low bytes. -/
theorem mergePair_two_bytes {q n : Nat} (hq : (shiftIn c.bitQueue c.bitCount.toNat v).toNat = q)
    (hn : c.bitCount.toNat + pairWidth v = n) (hlo : 16 ≤ n) (hhi : n < 24) :
    mergePair v c =
      { ctx := ctxOf (q / 65536) (n - 16) none .decoding, out := [BitVec.ofNat 8 q, BitVec.ofNat 8 (q / 256)] } := by
  have hbyte : (shiftIn c.bitQueue c.bitCount.toNat v >>> 8).toNat = q / 256 := hq ▸ shiftRight_toNat _ 8
  have hrest : shiftIn c.bitQueue c.bitCount.toNat v >>> 8 >>> 8 = BitVec.ofNat 32 (q / 65536) := by
    rw [← BitVec.shiftRight_add]
    exact hq ▸ shiftRight_eq_ofNat _ 16
  simp only [mergePair, hn, drainBytes_twice _ (by omega : 1 < n) hlo hhi, low8_eq_ofNat, hq, hbyte, hrest, ctxOf,
    Nat.sub_sub, Nat.reduceAdd]

/-- Settles O20: the cases of R152 are those of `decodeChar`, and a completed pair, which makes 13 to 21 bits, drains once or
twice. -/
theorem decConsumesOneCharacter : Obligations.DecConsumesOneCharacter := by
  intro k x s
  refine ⟨fun w => decode_eq_ok_context_iff (op := 5) rfl rfl, faultsAsChecked rfl, fun hinv hs hr => ?_⟩
  intro c
  have hctx : c.Ok := hinv.ctx_ok hs
  have hcount : c.bitCount.toNat ≤ 7 := hctx.range_of_not_encoding hr
  rw [exec_after rfl hs (opposedRole_ne_of_role_ne rfl hr), contextEffect]
  refine ⟨fun hx => ?_, fun d hx hp => ?_, fun d first hx hp => ?_⟩
  · rw [decodeChar_skip hx]
  · rw [decodeChar_first hx hp]
  · intro v n q
    have hn : c.bitCount.toNat + pairWidth (pairValue first d) = n := by rw [pairWidth_eq, pairValue_toNat]
    have hq : (shiftIn c.bitQueue c.bitCount.toNat (pairValue first d)).toNat = q := by
      rw [shiftIn_toNat _ hctx.queueBelow (by omega), pairValue_toNat]
    obtain ⟨hlo, hhi⟩ := pairWidth_range (pairValue first d)
    rw [decodeChar_pair hx hp]
    split
    case isTrue h16 => rw [mergePair_one_byte hq hn (by omega) h16]
    case isFalse h16 => rw [mergePair_two_bytes hq hn (not_lt.mp h16) (by omega)]

end Sys2Proof.Machine
end

section
/-! Proofs: decoding streams run to their end whatever their bytes, and bytes outside the alphabet change nothing of what
they emit (42_decoder.md R151, R156). -/

open Sys2Proof.Claims

namespace Sys2Proof.Machine

variable {a : List Byte} {c : Ctx} {e : CtxEffect} {s t u : State} {k : Nat} {is : List Instr}

/-- What a context emits for the bytes of a decoding stream and its finalizer. -/
def decoded (a : List Byte) : List Byte → Ctx → List Byte
  | [], c => (finishDecoding c).out
  | x :: xs, c => (decodeChar a x c).out ++ decoded a xs (decodeChar a x c).ctx

/-- A decoding stream is accepted from its first byte to its finalizer, and emits `decoded`. -/
theorem contextRun_decodingStream (hr : c.role ≠ .encoding) (cs : List Byte) :
    contextRun a (cs.map (Instr.dec k) ++ [.decEnd k]) c = some { ctx := Ctx.idle, out := decoded a cs c } := by
  induction cs generalizing c with
  | nil =>
    rw [List.map_nil, List.nil_append, contextRun_cons (opposedRole_ne_of_role_ne rfl hr) rfl, List.append_nil]
    rfl
  | cons x xs ih =>
    have hrole : (contextEffect a (.dec k x) c).ctx.role ≠ .encoding := by simp [contextEffect, decodeChar_role]
    exact contextRun_cons (opposedRole_ne_of_role_ne rfl hr) (ih hrole)

theorem Continues.refl (h : s.Inv) : Continues k s s := ⟨h, rfl, rfl, rfl, fun _ _ => rfl⟩

/-- Presenting commands that the context lets pass one after the other runs them all to the end. -/
theorem drive_map_present (hinv : s.Inv) (hs : s.accepts k) (hk : ∀ i ∈ is, contextOperand i = some k)
    (hrun : contextRun s.alphabet is (s.ctx k) = some e) :
    ∃ t tr, drive (is.map present) s = some (t, tr) ∧ t.ctx k = e.ctx ∧ output tr = e.out ∧ Continues k s t := by
  induction is generalizing s e with
  | nil =>
    cases hrun
    exact ⟨s, [], rfl, rfl, rfl, .refl hinv⟩
  | cons i rest ih =>
    obtain ⟨hi, hrest⟩ := List.forall_mem_cons.mp hk
    obtain ⟨hr, e', he'⟩ := contextRun_cons_some hrun
    cases hrun.symm.trans (contextRun_cons hr he')
    obtain ⟨t, hd, hctx, hcont⟩ := drive_present hinv hs hi hr
    obtain ⟨u, tr, hd', hctx', hout, hcont'⟩ := ih hcont.inv (hcont.accepts hs) hrest (by rwa [hcont.alphabet, hctx])
    refine ⟨u, _, drive_append hd hd', hctx', ?_, hcont.trans hcont'⟩
    simpa [output] using hout

/-- Every command of a stream names the stream's context. -/
theorem contextOperand_of_mem_stream {f : Byte → Instr} {last : Instr} {xs : List Byte}
    (hf : ∀ x, contextOperand (f x) = some k) (hlast : contextOperand last = some k) :
    ∀ i ∈ xs.map f ++ [last], contextOperand i = some k := by
  simp [or_imp, forall_and, hf, hlast]

theorem decodingStream_eq_map (k : Nat) (cs : List Byte) :
    decodingStream k cs = (cs.map (Instr.dec k) ++ [Instr.decEnd k]).map present := by
  simp [decodingStream, decs]

/-- A whole decoding stream runs to its end and emits `decoded`. -/
theorem drive_decodingStream (hinv : s.Inv) (hs : s.accepts k) (hr : (s.ctx k).role ≠ .encoding) (cs : List Byte) :
    ∃ t tr, drive (decodingStream k cs) s = some (t, tr) ∧ t.ctx k = Ctx.idle ∧
      output tr = decoded s.alphabet cs (s.ctx k) ∧ Continues k s t := by
  rw [decodingStream_eq_map]
  exact drive_map_present hinv hs (contextOperand_of_mem_stream (fun _ => rfl) rfl) (contextRun_decodingStream hr cs)

/-- Settles O51: DECS by induction on its bytes, then DEC_END; the run's record of the stream is then finalized. -/
theorem anyInputCanBeDecoded : Obligations.AnyInputCanBeDecoded := by
  intro s k cs hinv hs hr
  obtain ⟨t, tr, hd, hctx, -, hcont⟩ := drive_decodingStream hinv hs hr cs
  have hf : t.faulted = false := (hcont.accepts hs).unfaulted
  have hactions : tr.map Prod.fst = (cs.map (Instr.dec k) ++ [Instr.decEnd k]).map present := by
    rw [drive_actions hd, decodingStream_eq_map]
  have hdata : ∀ d ∈ cs.map (Instr.dec k), DataOn k d := by
    intro d hd
    obtain ⟨x, -, rfl⟩ := List.mem_map.mp hd
    exact ⟨x, .inr rfl⟩
  exact ⟨t, tr, hd, hf, hcont.status, hctx, hcont.others,
    endsWell_append_stream hactions hdata (.inr rfl) (hinv.context_le hs.lt) hf⟩

/-- A decoding stream emits the same from a context whose role DEC has set already. -/
theorem decoded_role_decoding (cs : List Byte) : decoded a cs { c with role := .decoding } = decoded a cs c := by
  cases cs <;> rfl

/-- Bytes outside the alphabet add nothing to the output (R151). -/
theorem decoded_filter (a cs : List Byte) (c : Ctx) : decoded a (cs.filter (inAlphabet a)) c = decoded a cs c := by
  induction cs generalizing c with
  | nil => rfl
  | cons x xs ih =>
    by_cases hx : x ∈ a
    · rw [List.filter_cons_of_pos (by simpa [inAlphabet] using hx), decoded, ih, decoded]
    · rw [List.filter_cons_of_neg (by simpa [inAlphabet] using hx), ih, decoded,
        decodeChar_skip (charToDigit_eq_none_iff.mpr hx), List.nil_append, decoded_role_decoding]

/-- Two continuations that leave context `k` the same leave all contexts the same. -/
theorem Continues.ctxs_eq (h : Continues k s t) (h' : Continues k s u) (hk : t.ctx k = u.ctx k) : t.ctxs = u.ctxs := by
  have hlength : t.ctxs.length = u.ctxs.length := h.numCtx.trans h'.numCtx.symm
  refine List.ext_getElem hlength fun j hj hj' => ?_
  by_cases hjk : j = k
  · subst hjk
    simpa [State.ctx, List.getD, hj, hj'] using hk
  · have hsame := (h.others j hjk).trans (h'.others j hjk).symm
    simpa [hj, hj'] using hsame

/-- Settles O52: both streams run to their end, where context `k` is Idle and every other context is as it was. -/
theorem noiseIsTolerated : Obligations.NoiseIsTolerated := by
  intro s k cs hinv hs hr
  obtain ⟨t, tr, hd, hctx, hout, hcont⟩ := drive_decodingStream hinv hs hr cs
  obtain ⟨t', tr', hd', hctx', hout', hcont'⟩ := drive_decodingStream hinv hs hr (cs.filter (inAlphabet s.alphabet))
  refine ⟨t, tr, t', tr', hd, hd', ?_, hcont.ctxs_eq hcont' (hctx.trans hctx'.symm), hcont.status.trans hcont'.status.symm⟩
  rw [hout, hout', decoded_filter]

end Sys2Proof.Machine
end

section
/-! Proofs: decoding inverts encoding (42_decoder.md R155). Encoder and decoder are run side by side: the bits that either
still holds are always the bytes that have been encoded and not yet decoded. -/

open Sys2Proof.Claims

namespace Sys2Proof.Machine

variable {a : List Byte} {x : Byte} {c d : Ctx} {s t : State} {j k : Nat} {v : PairValue} {q : Queue} {held : List Byte}

/-- What a context emits for the bytes of an encoding stream and its finalizer. -/
def encoded (a : List Byte) : List Byte → Ctx → List Byte
  | [], c => (finishEncoding a c).out
  | x :: xs, c => (encodeByte a x c).out ++ encoded a xs (encodeByte a x c).ctx

/-- An encoding stream is accepted from its first byte to its finalizer, and emits `encoded`. -/
theorem contextRun_encodingStream (hr : c.role ≠ .decoding) (bs : List Byte) :
    contextRun a (bs.map (Instr.enc k) ++ [.encEnd k]) c = some { ctx := Ctx.idle, out := encoded a bs c } := by
  induction bs generalizing c with
  | nil =>
    rw [List.map_nil, List.nil_append, contextRun_cons (opposedRole_ne_of_role_ne rfl hr) rfl, List.append_nil]
    rfl
  | cons x xs ih =>
    have hrole : (contextEffect a (.enc k x) c).ctx.role ≠ .decoding := by simp [contextEffect, encodeByte]
    exact contextRun_cons (opposedRole_ne_of_role_ne rfl hr) (ih hrole)

/-- A whole encoding stream runs to its end and emits `encoded`. -/
theorem drive_encodingStream_encoded (hinv : s.Inv) (hs : s.accepts k) (hr : (s.ctx k).role ≠ .decoding)
    (bs : List Byte) :
    ∃ t tr, drive (encodingStream k bs) s = some (t, tr) ∧ t.ctx k = Ctx.idle ∧
      output tr = encoded s.alphabet bs (s.ctx k) ∧ Continues k s t := by
  have hmap : encodingStream k bs = (bs.map (Instr.enc k) ++ [Instr.encEnd k]).map present := by
    simp [encodingStream, encs]
  rw [hmap]
  exact drive_map_present hinv hs (contextOperand_of_mem_stream (fun _ => rfl) rfl) (contextRun_encodingStream hr bs)

/-- Bytes as one number, the first byte lowest, as they stand in a bit queue (20_memory.md R53). -/
def bytesValue (bs : List Byte) : Nat := Nat.ofDigits 256 (bs.map BitVec.toNat)

@[simp] theorem bytesValue_nil : bytesValue [] = 0 := rfl

theorem bytesValue_cons (x : Byte) (bs : List Byte) : bytesValue (x :: bs) = x.toNat + 256 * bytesValue bs :=
  Nat.ofDigits_cons ..

theorem bytesValue_concat (bs : List Byte) (x : Byte) :
    bytesValue (bs ++ [x]) = bytesValue bs + x.toNat * 2 ^ (8 * bs.length) := by
  rw [bytesValue, List.map_append, Nat.ofDigits_append, List.length_map, List.map_singleton, Nat.ofDigits_singleton,
    Nat.pow_mul, Nat.mul_comm]
  rfl

/-- Where the low `n` bits of some bytes are in a queue, the loop of DEC emits the first of these bytes, and what it leaves in
the queue stands below the rest `r` as the remaining bytes have it. -/
theorem drainBytes_split {fuel n r : Nat} (hfuel : n ≤ fuel) (hn : n < 8 * held.length + 8)
    (hvalue : q.toNat + r * 2 ^ n = bytesValue held) :
    ∃ rest, held = (drainBytes fuel q n).out ++ rest ∧
      (drainBytes fuel q n).queue.toNat + r * 2 ^ (drainBytes fuel q n).count = bytesValue rest := by
  induction fuel generalizing n q held with
  | zero =>
    obtain rfl := Nat.le_zero.mp hfuel
    exact ⟨held, rfl, hvalue⟩
  | succ fuel ih =>
    by_cases h8 : n < 8
    · rw [drainBytes_done _ q h8]
      exact ⟨held, rfl, hvalue⟩
    · obtain ⟨m, rfl⟩ : ∃ m, n = m + 8 := ⟨n - 8, by omega⟩
      cases held with
      | nil => simp at hn
      | cons b bs =>
        have hb := b.isLt
        rw [bytesValue_cons, Nat.pow_add, ← Nat.mul_assoc] at hvalue
        have hlow : q.extractLsb' 0 8 = b := by
          apply BitVec.eq_of_toNat_eq
          rw [low8_eq_ofNat, BitVec.toNat_ofNat]
          omega
        have hshift : (q >>> 8).toNat + r * 2 ^ m = bytesValue bs := by
          rw [shiftRight_toNat]
          omega
        obtain ⟨rest, hsplit, hrest⟩ := ih (n := m) (by omega) (by rw [List.length_cons] at hn; omega) hshift
        rw [drainBytes_more q (by omega), Nat.add_sub_cancel, hlow]
        exact ⟨rest, by rw [List.cons_append, ← hsplit], hrest⟩

/-- A completed pair whose bits, above those held, are the low bits of some bytes emits the first of these bytes. -/
theorem mergePair_split {r : Nat} (hd : d.Ok) (hr : d.role ≠ .encoding)
    (hn : d.bitCount.toNat + pairWidth v < 8 * held.length + 8)
    (hvalue : d.bitQueue.toNat + v.toNat * 2 ^ d.bitCount.toNat + r * 2 ^ (d.bitCount.toNat + pairWidth v) =
      bytesValue held) :
    ∃ rest, held = (mergePair v d).out ++ rest ∧
      (mergePair v d).ctx.bitQueue.toNat + r * 2 ^ (mergePair v d).ctx.bitCount.toNat = bytesValue rest ∧
      8 * held.length + (mergePair v d).ctx.bitCount.toNat =
        8 * rest.length + (d.bitCount.toNat + pairWidth v) := by
  have hcount := hd.range_of_not_encoding hr
  rw [← shiftIn_toNat v hd.queueBelow (by omega)] at hvalue
  obtain ⟨rest, hsplit, hrest⟩ := drainBytes_split le_rfl hn hvalue
  obtain ⟨hout, hleft⟩ := mergePair_counts (v := v) (c := d)
  have hstored : (mergePair v d).ctx.bitCount.toNat =
      (drainBytes (d.bitCount.toNat + pairWidth v) (shiftIn d.bitQueue d.bitCount.toNat v)
        (d.bitCount.toNat + pairWidth v)).count := by
    rw [hleft, (drainBytes_counts le_rfl _).2]
  refine ⟨rest, hsplit, hstored ▸ hrest, ?_⟩
  have hlength : held.length = (mergePair v d).out.length + rest.length := by
    rw [← List.length_append]
    exact congrArg List.length hsplit
  omega

/-- The characters of a pair value reach a decoder that waits for a first digit as this value. -/
theorem decoded_pairChars (hlength : a.length = Config.base) (hnodup : a.Nodup) (hv : v.toNat ≤ 8280)
    (hp : d.pending = none) (cs : List Byte) :
    decoded a (pairChars a v ++ cs) d = (mergePair v d).out ++ decoded a cs (mergePair v d).ctx := by
  have hdigit (n : Nat) (hn : n ≤ 90) : charToDigit a (digitToChar a n) = some (BitVec.ofNat 7 n) :=
    charToDigit_digitToChar hnodup (by rw [hlength, Config.base]; omega)
  rw [pairChars, List.cons_append, decoded, decodeChar_first (hdigit _ (by omega)) hp, List.cons_append, decoded,
    decodeChar_pair (hdigit _ (by omega)) rfl, pairValue_digits hv]
  rfl

theorem mergePair_ok_of_le (hd : d.Ok) (hr : d.role ≠ .encoding) (hv : v.toNat ≤ 8280) : (mergePair v d).Ok := by
  rw [← pairValue_digits hv]
  refine mergePair_ok hd hr ?_ ?_
  · rw [BitVec.toNat_ofNat]
    omega
  · rw [BitVec.toNat_ofNat]
    omega

/-- An encoder's context `c` and the context `d` of a decoder that has got all its output so far: the bits in the two, `d`'s
below, are the bytes `held`, which have been encoded and not yet decoded. -/
structure Carries (c d : Ctx) (held : List Byte) : Prop where
  encOk : c.Ok
  encRole : c.role ≠ .decoding
  decOk : d.Ok
  decRole : d.role ≠ .encoding
  noDigit : d.pending = none
  bits : d.bitCount.toNat + c.bitCount.toNat = 8 * held.length
  value : d.bitQueue.toNat + c.bitQueue.toNat * 2 ^ d.bitCount.toNat = bytesValue held

theorem carries_idle : Carries Ctx.idle Ctx.idle [] :=
  ⟨Ctx.idle_ok, nofun, Ctx.idle_ok, nofun, rfl, rfl, rfl⟩

/-- The byte that ENC shifts in stands above all the bytes held. -/
theorem Carries.value_shiftIn (h : Carries c d held) (x : Byte) :
    d.bitQueue.toNat + (shiftIn c.bitQueue c.bitCount.toNat x).toNat * 2 ^ d.bitCount.toNat =
      bytesValue (held ++ [x]) := by
  obtain ⟨hcount, -⟩ := h.encOk.range_of_not_decoding h.encRole
  rw [bytesValue_concat, ← h.value, ← h.bits, shiftIn_toNat x h.encOk.queueBelow (by omega), Nat.pow_add]
  ring

/-- ENC that buffers its byte adds it to the bytes held. -/
theorem Carries.buffer (h : Carries c d held) (hn : c.bitCount.toNat + 8 ≤ 13) :
    (encodeByte a x c).out = [] ∧ Carries (encodeByte a x c).ctx d (held ++ [x]) := by
  have hok := (encodeByte_ok (a := a) (x := x) h.encOk h.encRole).ctx
  rw [encodeByte_buffers hn] at hok ⊢
  refine ⟨rfl, hok, nofun, h.decOk, h.decRole, h.noDigit, ?_, h.value_shiftIn x⟩
  have hbits := h.bits
  rw [toNat_ofNat_count hn, List.length_append, List.length_singleton]
  omega

/-- ENC that emits a codeword adds its byte to the bytes held, and the decoder of the codeword emits the first of these. -/
theorem Carries.emit (h : Carries c d held) (hn : 13 < c.bitCount.toNat + 8) :
    ∃ v rest, (encodeByte a x c).out = pairChars a v ∧ v.toNat ≤ 8280 ∧ held ++ [x] = (mergePair v d).out ++ rest ∧
      Carries (encodeByte a x c).ctx (mergePair v d).ctx rest := by
  obtain ⟨hcount, -⟩ := h.encOk.range_of_not_decoding h.encRole
  have hok := (encodeByte_ok (a := a) (x := x) h.encOk h.encRole).ctx
  have hvalue := h.value_shiftIn x
  have hbits := h.bits
  rw [encodeByte_emits hn hcount] at hok ⊢
  generalize shiftIn c.bitQueue c.bitCount.toNat x = q at hok hvalue ⊢
  have hv := takeCodeword_le q
  obtain ⟨hlo, hhi⟩ := takeWidth_range q
  have hparts : d.bitQueue.toNat + (takeCodeword q).toNat * 2 ^ d.bitCount.toNat +
      (q >>> takeWidth q).toNat * 2 ^ (d.bitCount.toNat + pairWidth (takeCodeword q)) = bytesValue (held ++ [x]) := by
    rw [← hvalue, takeCodeword_eq_mod, pairWidth_takeCodeword, shiftRight_toNat, Nat.pow_add]
    conv_rhs => rw [← Nat.mod_add_div q.toNat (2 ^ takeWidth q)]
    ring
  have htotal : 8 * (held ++ [x]).length = d.bitCount.toNat + c.bitCount.toNat + 8 := by
    rw [List.length_append, List.length_singleton]
    omega
  obtain ⟨rest, hsplit, hrest, hleft⟩ := mergePair_split h.decOk h.decRole
    (by rw [pairWidth_takeCodeword]; omega) hparts
  refine ⟨takeCodeword q, rest, rfl, hv, hsplit, hok, nofun, (mergePair_ok_of_le h.decOk h.decRole hv).ctx, nofun, rfl,
    ?_, hrest⟩
  rw [pairWidth_takeCodeword] at hleft
  rw [toNat_ofNat_count (by omega)]
  omega

/-- The decoder of a trailing pair emits all the bytes held: the pair has the bits held and fewer than 8 above them
(43_finalizers.md R172). -/
theorem Carries.mergePair_all (h : Carries c d held) (hv : v.toNat = c.bitQueue.toNat)
    (hlo : c.bitCount.toNat ≤ pairWidth v) (hhi : pairWidth v < c.bitCount.toNat + 8) : (mergePair v d).out = held := by
  have hbits := h.bits
  obtain ⟨rest, hsplit, -, hleft⟩ := mergePair_split (v := v) (r := 0) (held := held) h.decOk h.decRole (by omega)
    (by rw [hv, Nat.zero_mul, Nat.add_zero, h.value])
  obtain ⟨-, hcount⟩ := mergePair_counts (v := v) (c := d)
  have hnil : rest = [] := List.eq_nil_of_length_eq_zero (by omega)
  rw [hsplit, hnil, List.append_nil]

theorem trailingByte_none (hp : c.pending = none) : trailingByte c = [] := by simp only [trailingByte, hp]

theorem trailingByte_some {dig : Digit} (hp : c.pending = some dig) :
    trailingByte c = [BitVec.ofNat 8 (shiftIn c.bitQueue c.bitCount.toNat dig).toNat] := by
  simp only [trailingByte, hp, low8_eq_ofNat]

/-- One trailing character leaves the decoder a digit that completes the one byte held (43_finalizers.md R176). -/
theorem Carries.decoded_trailingDigit (h : Carries c d held) (hlength : a.length = Config.base) (hnodup : a.Nodup)
    (hpos : 0 < c.bitCount.toNat) (hn : c.bitCount.toNat ≤ 7) (hq : c.bitQueue.toNat ≤ 90) :
    decoded a [digitToChar a c.bitQueue.toNat] d = held := by
  have hcount := h.decOk.range_of_not_encoding h.decRole
  have hbits := h.bits
  obtain ⟨b, rfl⟩ := List.length_eq_one_iff.mp (by omega : held.length = 1)
  have hfirst : charToDigit a (digitToChar a c.bitQueue.toNat) = some (BitVec.ofNat 7 c.bitQueue.toNat) :=
    charToDigit_digitToChar hnodup (by rw [hlength, Config.base]; omega)
  have hdigit : (BitVec.ofNat 7 c.bitQueue.toNat).toNat = c.bitQueue.toNat := by
    rw [BitVec.toNat_ofNat]
    omega
  have hbyte : (shiftIn d.bitQueue d.bitCount.toNat (BitVec.ofNat 7 c.bitQueue.toNat)).toNat = b.toNat := by
    rw [shiftIn_toNat _ h.decOk.queueBelow (by omega), hdigit, h.value, bytesValue_cons, bytesValue_nil, Nat.mul_zero,
      Nat.add_zero]
  rw [decoded, decodeChar_first hfirst h.noDigit, List.nil_append, decoded, finishDecoding, trailingByte_some rfl, hbyte,
    BitVec.ofNat_toNat, BitVec.setWidth_eq]

/-- Bits that take two characters by R172 are fewer than 8 short of the width of a pair. -/
theorem pairWidth_lt_of_trailing (h : c.Ok) (hr : c.role ≠ .decoding) (hv : v.toNat = c.bitQueue.toNat)
    (htwo : c.bitCount.toNat > 7 ∨ c.bitQueue.toNat > 90) : pairWidth v < c.bitCount.toNat + 8 := by
  obtain ⟨hcount, -⟩ := h.range_of_not_decoding hr
  obtain ⟨-, hhi⟩ := pairWidth_range v
  rcases Nat.lt_or_ge c.bitCount.toNat 7 with hlt | hge
  · have hq : c.bitQueue.toNat < 2 ^ 6 := h.queueBelow.trans_le (Nat.pow_le_pow_right (by omega) (by omega))
    omega
  · rcases htwo with hn | hq
    · omega
    · have hsmall : c.bitQueue.toNat < 2 ^ 13 := h.queueBelow.trans_le (Nat.pow_le_pow_right (by omega) hcount)
      rw [pairWidth_eq, if_pos (by omega)]
      omega

/-- Two trailing characters reach the decoder as a pair: it has the bits held and fewer than 8 above them, so all the bytes
held leave, and no digit is left for DEC_END. -/
theorem Carries.decoded_trailingPair (h : Carries c d held) (hlength : a.length = Config.base) (hnodup : a.Nodup)
    (htwo : c.bitCount.toNat > 7 ∨ c.bitQueue.toNat > 90) :
    decoded a [digitToChar a (c.bitQueue.toNat % 91), digitToChar a (c.bitQueue.toNat / 91)] d = held := by
  obtain ⟨hcount, -⟩ := h.encOk.range_of_not_decoding h.encRole
  have hsmall : c.bitQueue.toNat < 2 ^ 13 := h.encOk.queueBelow.trans_le (Nat.pow_le_pow_right (by omega) hcount)
  obtain ⟨v, hv⟩ : ∃ v : PairValue, v.toNat = c.bitQueue.toNat := ⟨BitVec.ofNat 14 c.bitQueue.toNat, by
    rw [BitVec.toNat_ofNat]
    omega⟩
  obtain ⟨hlo, -⟩ := pairWidth_range v
  have hpair : decoded a (pairChars a v ++ []) d = held := by
    rw [decoded_pairChars hlength hnodup (by omega) h.noDigit,
      h.mergePair_all hv (hcount.trans hlo) (pairWidth_lt_of_trailing h.encOk h.encRole hv htwo)]
    exact List.append_nil held
  rwa [pairChars, hv, List.append_nil] at hpair

/-- The finalizers let out the bytes held (43_finalizers.md R171, R176). -/
theorem Carries.finish (h : Carries c d held) (hlength : a.length = Config.base) (hnodup : a.Nodup) :
    decoded a (finishEncoding a c).out d = held := by
  simp only [finishEncoding, trailingChars]
  split
  case isFalse hzero =>
    have hdec := h.decOk.range_of_not_encoding h.decRole
    have hbits := h.bits
    have hheld : held = [] := List.eq_nil_of_length_eq_zero (by omega)
    rw [hheld, decoded, finishDecoding, trailingByte_none h.noDigit]
  case isTrue hpos =>
    split
    case isTrue htwo => exact h.decoded_trailingPair hlength hnodup htwo
    case isFalse hone =>
      rw [Nat.mod_eq_of_lt (by omega)]
      exact h.decoded_trailingDigit hlength hnodup hpos (by omega) (by omega)

/-- From contexts that carry some bytes, what is encoded is decoded, behind these bytes. -/
theorem decoded_encoded (hlength : a.length = Config.base) (hnodup : a.Nodup) (bs : List Byte) (h : Carries c d held) :
    decoded a (encoded a bs c) d = held ++ bs := by
  induction bs generalizing c d held with
  | nil => rw [encoded, h.finish hlength hnodup, List.append_nil]
  | cons x xs ih =>
    rw [encoded, ← List.singleton_append, ← List.append_assoc]
    by_cases hn : c.bitCount.toNat + 8 ≤ 13
    · obtain ⟨hout, hnext⟩ := h.buffer (a := a) (x := x) hn
      rw [hout, List.nil_append, ih hnext]
    · obtain ⟨v, rest, hout, hv, hsplit, hnext⟩ := h.emit (a := a) (x := x) (not_le.mp hn)
      rw [hout, decoded_pairChars hlength hnodup hv h.noDigit, ih hnext, hsplit, List.append_assoc]

/-- An Idle context is all zero. -/
theorem State.Inv.ctx_eq_idle (h : s.Inv) (hk : s.accepts k) (hr : (s.ctx k).role = .idle) : s.ctx k = Ctx.idle :=
  (h.ctx_ok hk).idleZero hr

theorem Continues.ctx_other (h : Continues k s t) (hj : j ≠ k) : t.ctx j = s.ctx j := by
  simp only [State.ctx, List.getD_eq_getElem?_getD, h.others j hj]

/-- Settles O53: what the noise leaves of the decoder's input is the encoder's output, and from Idle contexts nothing is held. -/
theorem decodingInvertsEncoding : Obligations.DecodingInvertsEncoding := by
  intro s j k bs hinv hk hj hkidle hjidle
  obtain ⟨t, tr, hd, hctx, hout, hcont⟩ := drive_encodingStream_encoded hinv hk (by simp [hkidle]) bs
  refine ⟨t, tr, hd, fun noisy hnoisy => ?_⟩
  obtain ⟨hf, -, hready⟩ := hcont.accepts hk
  have hj' : t.accepts j := ⟨hf, hj.lt.trans_eq hcont.numCtx.symm, hready⟩
  have hidle : t.ctx j = Ctx.idle := by
    by_cases hjk : j = k
    · rw [hjk, hctx]
    · rw [hcont.ctx_other hjk, hinv.ctx_eq_idle hj hjidle]
  obtain ⟨t', tr', hd', -, hout', hcont'⟩ := drive_decodingStream hcont.inv hj' (by simp [hidle, Ctx.idle]) noisy
  obtain ⟨hlength, hnodup, -⟩ := hinv.params
  refine ⟨t', tr', hd', (hcont'.accepts hj').unfaulted, ?_⟩
  rw [hout', hcont.alphabet, ← decoded_filter, hnoisy, hout, hidle, hinv.ctx_eq_idle hk hkidle]
  exact decoded_encoded hlength hnodup bs carries_idle

end Sys2Proof.Machine
end

section
/-! Proofs: the finalizers ENC_END and DEC_END (43_finalizers.md R171, R172, R176, R177). -/

open Sys2Proof.Claims

namespace Sys2Proof.Machine

variable {c : Ctx} {d : Digit} {i : Instr} {k : Nat} {s : State}

/-- The trailing characters by the number of bits held, the empty case first. -/
theorem trailingChars_eq (a : List Byte) (q n : Nat) :
    trailingChars a q n =
      if n = 0 then []
      else if n > 7 ∨ q > 90 then [digitToChar a (q % 91), digitToChar a (q / 91)]
      else [digitToChar a (q % 91)] := by
  rcases Nat.eq_zero_or_pos n with hzero | hpos
  · rw [trailingChars, if_neg (by omega), if_pos hzero]
  · rw [trailingChars, if_pos hpos, if_neg hpos.ne']

/-- A pending digit leaves with the bits held below it (20_memory.md R53). -/
theorem trailingByte_some_sum (h : c.Ok) (hr : c.role ≠ .encoding) (hp : c.pending = some d) :
    trailingByte c = [BitVec.ofNat 8 (c.bitQueue.toNat + d.toNat * 2 ^ c.bitCount.toNat)] := by
  have hcount := h.range_of_not_encoding hr
  rw [trailingByte_some hp, shiftIn_toNat d h.queueBelow (by omega)]

/-- Settles O21: ENC_END leaves the Idle context and emits the trailing characters. -/
theorem encEndFlushesAndGoesIdle : Obligations.EncEndFlushesAndGoesIdle := by
  intro k s
  refine ⟨fun w => decode_eq_ok_context_iff (op := 4) (x := 0) rfl rfl, faultsAsChecked rfl, fun hs hr => ?_⟩
  intro n q
  rw [exec_after rfl hs (opposedRole_ne_of_role_ne rfl hr), contextEffect, finishEncoding, trailingChars_eq]
  rfl

/-- Settles O22: DEC_END leaves the Idle context and emits the trailing byte, which a pending digit alone makes. -/
theorem decEndFlushesAndGoesIdle : Obligations.DecEndFlushesAndGoesIdle := by
  intro k s
  refine ⟨fun w => decode_eq_ok_context_iff (op := 6) (x := 0) rfl rfl, faultsAsChecked rfl, fun hs hr => ?_⟩
  rw [exec_after rfl hs (opposedRole_ne_of_role_ne rfl hr), contextEffect, finishDecoding]
  refine ⟨fun hp => ?_, fun hinv d hp => ?_⟩
  · rw [trailingByte_none hp]
    rfl
  · rw [trailingByte_some_sum (hinv.ctx_ok hs) hr hp]
    rfl

/-- A command that leaves an Idle context Idle and emits nothing there changes nothing but the response. -/
theorem exec_of_idle_fixed (hk : contextOperand i = some k) (hinv : s.Inv) (hs : s.accepts k)
    (hidle : (s.ctx k).role = .idle) (hr : opposedRole i ≠ some .idle)
    (hfixed : contextEffect s.alphabet i Ctx.idle = { ctx := Ctx.idle, out := [] }) :
    exec i s = .next { s with response := [] } := by
  have hctx := hinv.ctx_eq_idle hs hidle
  rw [exec_after hk hs (hidle ▸ hr), hctx, hfixed, ← hctx, after_ctx_self [] hs.lt]

/-- Settles O23: an Idle context is all zero, which both finalizers leave as it is. -/
theorem finalizerOnIdleHasNoEffect : Obligations.FinalizerOnIdleHasNoEffect := fun _ _ hinv hs hidle =>
  ⟨exec_of_idle_fixed rfl hinv hs hidle nofun rfl, exec_of_idle_fixed rfl hinv hs hidle nofun rfl⟩

end Sys2Proof.Machine
end

section
/-! Proofs: the checks of a presented word and the fault mechanism (60_exceptions.md R190 to R196). -/

open Sys2Proof.Claims

namespace Sys2Proof.Machine

variable {a : HostAction} {c : Cause} {i : Instr} {k : Nat} {s t u : State} {w : Word}

/-- The words that encode to context `k` are those whose command a Decoding context opposes (R193). -/
theorem decode_encoding_iff : ((∃ x, decode w = .ok (.enc k x)) ∨ decode w = .ok (.encEnd k)) ↔
    ∃ i, decode w = .ok i ∧ contextOperand i = some k ∧ opposedRole i = some .decoding := by
  constructor
  · rintro (⟨x, hd⟩ | hd) <;> exact ⟨_, hd, rfl, rfl⟩
  · rintro ⟨i, hd, hk, hr⟩
    rcases contextOperand_cases hk with rfl | rfl | rfl | ⟨x, rfl | rfl⟩
    · cases hr
    · exact .inr hd
    · cases hr
    · exact .inl ⟨x, hd⟩
    · cases hr

/-- The words that decode to context `k` are those whose command an Encoding context opposes (R193). -/
theorem decode_decoding_iff : ((∃ x, decode w = .ok (.dec k x)) ∨ decode w = .ok (.decEnd k)) ↔
    ∃ i, decode w = .ok i ∧ contextOperand i = some k ∧ opposedRole i = some .encoding := by
  constructor
  · rintro (⟨x, hd⟩ | hd) <;> exact ⟨_, hd, rfl, rfl⟩
  · rintro ⟨i, hd, hk, hr⟩
    rcases contextOperand_cases hk with rfl | rfl | rfl | ⟨x, rfl | rfl⟩
    · cases hr
    · cases hr
    · exact .inr hd
    · cases hr
    · exact .inl ⟨x, hd⟩

/-- No command is misuse of an Idle context (R193). -/
theorem opposedRole_ne_idle : opposedRole i ≠ some .idle := by
  cases i <;> simp [opposedRole]

/-- A faulted block drops every word, legal or not (R196). -/
theorem runWord_faulted (h : s.faulted = true) : runWord w s = .next (s.respond []) := by
  cases hd : decode w with
  | ok i => rw [runWord_ok hd, exec_drop (check_faulted h)]
  | error e =>
    rw [runWord_error hd]
    exact if_pos h

theorem runWord_illegal (hf : s.faulted = false) (h : ∀ i, decode w ≠ .ok i) :
    runWord w s = .next (raiseFault .illegalCommand w s) := by
  cases hd : decode w with
  | ok i => exact absurd hd (h i)
  | error e => rw [runWord_error hd, rejectWord_unfaulted hf]

/-- A failed check records the presented word, which is its command's (R195). -/
theorem runWord_fault (hd : decode w = .ok i) (hc : check i s = .fault c) : runWord w s = .next (raiseFault c w s) := by
  rw [runWord_ok hd, exec_fault hc, encode_of_decode hd]

/-- A command whose checks pass ends without a fault. -/
theorem exec_go_unfaulted (hc : check i s = .go) : ∃ t, exec i s = .next t ∧ t.faulted = false :=
  ⟨_, exec_go hc, effectOf_faulted.trans (unfaulted_of_check hc nofun)⟩

theorem runWord_go_unfaulted (hd : decode w = .ok i) (hc : check i s = .go) :
    ∃ t, runWord w s = .next t ∧ t.faulted = false :=
  runWord_ok hd ▸ exec_go_unfaulted hc

/-- Settles O11: the step runs the word, and each clause is one of the checks of its command. -/
theorem checksAreTakenInOrder : Obligations.ChecksAreTakenInOrder := by
  intro s w rest hhost s0
  rw [step_command hhost]
  have misuse {k : Nat} {r : Role} (hs : s.accepts k) (hr : (s.ctx k).role = r)
      (hi : ∃ i, decode w = .ok i ∧ contextOperand i = some k ∧ opposedRole i = some r) :
      runWord w s0 = .next (raiseFault .roleMisuse w s0) := by
    obtain ⟨i, hd, hk, hopposed⟩ := hi
    exact runWord_fault hd (check_roleMisuse (s := s0) hk hs (hopposed.trans (congrArg some hr.symm)))
  have executes {k : Nat} {r : Role} (hs : s.accepts k) (hr : (s.ctx k).role ≠ r)
      (hi : ∃ i, decode w = .ok i ∧ contextOperand i = some k ∧ opposedRole i = some r) :
      ∃ t, runWord w s0 = .next t ∧ t.faulted = false := by
    obtain ⟨i, hd, hk, hopposed⟩ := hi
    exact runWord_go_unfaulted hd (check_go (s := s0) hk hs (opposedRole_ne_of_role_ne hopposed hr))
  refine ⟨runWord_faulted (s := s0), runWord_illegal (s := s0),
    fun hf i k hd hk hn => runWord_fault hd (check_badContext (s := s0) hk hf hn),
    fun hf i k hd hk hn hready => runWord_fault hd (check_notReady (s := s0) hk hf hn hready),
    fun k hs hr hi => misuse hs hr (decode_encoding_iff.mp hi),
    fun k hs hr hi => misuse hs hr (decode_decoding_iff.mp hi),
    fun hf hd => runWord_go_unfaulted hd (check_initTables (s := s0) hf),
    fun k hs hd => runWord_go_unfaulted hd (check_go (s := s0) rfl hs nofun),
    fun k hs hr hi => executes hs hr (decode_encoding_iff.mp hi),
    fun k hs hr hi => executes hs hr (decode_decoding_iff.mp hi)⟩

/-- What it means that a check failed: the command names a context, and its fault applies there (R194). -/
theorem check_fault_cases (h : check i s = .fault c) :
    ∃ k, contextOperand i = some k ∧
      ((c = .badContext ∧ s.numCtx ≤ k) ∨ (c = .notReady ∧ s.ready = false) ∨
        (c = .roleMisuse ∧ opposedRole i = some (s.ctx k).role)) := by
  have hf : s.faulted = false := unfaulted_of_check h nofun
  cases hk : contextOperand i with
  | none =>
    cases eq_initTables_of_contextOperand hk
    cases (check_initTables hf).symm.trans h
  | some k =>
    refine ⟨k, rfl, ?_⟩
    rcases Nat.lt_or_ge k s.numCtx with hn | hn
    · cases hready : s.ready with
      | false =>
        cases (check_notReady hk hf hn hready).symm.trans h
        exact .inr (.inl ⟨rfl, rfl⟩)
      | true =>
        by_cases hr : opposedRole i = some (s.ctx k).role
        · cases (check_roleMisuse hk ⟨hf, hn, hready⟩ hr).symm.trans h
          exact .inr (.inr ⟨rfl, hr⟩)
        · cases (check_go hk ⟨hf, hn, hready⟩ hr).symm.trans h
    · cases (check_badContext hk hf hn).symm.trans h
      exact .inl ⟨rfl, hn⟩

/-- Everything a word can do that faults a block: it spells no command, or a check of its command fails. -/
theorem runWord_fault_cases (hf : s.faulted = false) (h : runWord w s = .next t) (ht : t.faulted = true) :
    ∃ c, t = raiseFault c w s ∧
      ((c = .illegalCommand ∧ ∀ i, decode w ≠ .ok i) ∨ ∃ i, decode w = .ok i ∧ check i s = .fault c) := by
  cases hd : decode w with
  | error e =>
    rw [runWord_error hd, rejectWord_unfaulted hf] at h
    cases h
    exact ⟨_, rfl, .inl ⟨rfl, nofun⟩⟩
  | ok i =>
    rcases exec_cases (runWord_ok hd ▸ h) with ⟨-, rfl⟩ | ⟨c, hc, rfl⟩ | ⟨-, rfl⟩
    · cases hf.symm.trans ht
    · exact ⟨c, by rw [encode_of_decode hd], .inr ⟨i, rfl, hc⟩⟩
    · cases hf.symm.trans (effectOf_faulted.symm.trans ht)

/-- A step that faults a block ran a command word. -/
theorem step_fault_command (hf : s.faulted = false) (h : step s = .next t) (ht : t.faulted = true) :
    ∃ w rest, s.host = .command w :: rest ∧ runWord w { s with host := rest } = .next t := by
  rcases step_cases h with ⟨-, rfl⟩ | hcommand | ⟨n, rest, -, hread⟩ | ⟨rest, -, rfl⟩
  · cases hf.symm.trans ht
  · exact hcommand
  · obtain ⟨v, -, rfl⟩ := hostRead_cases hread
    cases hf.symm.trans ht
  · cases (blockReset_faulted _).symm.trans ht

theorem Cause.code_cases (c : Cause) : c.code = 1 ∨ c.code = 2 ∨ c.code = 3 ∨ c.code = 4 := by
  cases c <;> decide

/-- Settles O12: such a step ran a word that raised its fault, which writes STATUS, FAULT_CMD and the response alone. -/
theorem faultEntryIsPrecise : Obligations.FaultEntryIsPrecise := by
  intro s t hf hstep ht
  obtain ⟨w, rest, hhost, hw⟩ := step_fault_command hf hstep ht
  obtain ⟨c, rfl, -⟩ := runWord_fault_cases (s := { s with host := rest }) hf hw ht
  refine ⟨w, rest, hhost, ?_, rfl, rfl, raiseFault_ready .., statusSetFault_reserved .., rfl, rfl, rfl, rfl⟩
  rw [raiseFault_cause]
  exact c.code_cases

/-- A command leaves the block faulted unless its checks pass. -/
theorem exec_faulted_iff (h : exec i s = .next t) : t.faulted = true ↔ check i s ≠ .go := by
  rcases exec_cases h with ⟨hc, rfl⟩ | ⟨c, hc, rfl⟩ | ⟨hc, rfl⟩
  · simp [hc, faulted_of_check_drop hc]
  · simp [hc]
  · simp [hc, unfaulted_of_check hc nofun]

/-- Two commands with the same checks fault alike. -/
theorem faulted_congr {j : Instr} (hcheck : check i s = check j s) (hi : exec i s = .next t) (hj : exec j s = .next u) :
    t.faulted = u.faulted := by
  rw [Bool.eq_iff_iff, exec_faulted_iff hi, exec_faulted_iff hj, hcheck]

/-- Misuse has two directions (R193). -/
theorem misuse_directions (hd : decode w = .ok i) (hk : contextOperand i = some k)
    (hr : opposedRole i = some (s.ctx k).role) :
    ((∃ x, decode w = .ok (.enc k x)) ∨ decode w = .ok (.encEnd k)) ∧ (s.ctx k).role = .decoding ∨
    ((∃ x, decode w = .ok (.dec k x)) ∨ decode w = .ok (.decEnd k)) ∧ (s.ctx k).role = .encoding := by
  cases hrole : (s.ctx k).role with
  | idle => exact absurd (hrole ▸ hr) opposedRole_ne_idle
  | encoding => exact .inr ⟨decode_decoding_iff.mpr ⟨i, hd, hk, hrole ▸ hr⟩, rfl⟩
  | decoding => exact .inl ⟨decode_encoding_iff.mpr ⟨i, hd, hk, hrole ▸ hr⟩, rfl⟩

/-- Settles O13: no check reads the data byte, and a fault's cause is the check that failed. -/
theorem faultCausesAndTheirCodes : Obligations.FaultCausesAndTheirCodes := by
  refine ⟨rfl, rfl, rfl, rfl, fun s t u k x y => ⟨faulted_congr rfl, faulted_congr rfl⟩,
    fun s t w rest hf hhost hstep ht => ?_⟩
  obtain ⟨c, rfl, hcause⟩ := runWord_fault_cases (s := { s with host := rest }) hf (step_command hhost ▸ hstep) ht
  rw [raiseFault_cause]
  refine ⟨rfl, c.code_cases, ?_⟩
  rcases hcause with ⟨rfl, hnone⟩ | ⟨i, hd, hc⟩
  · simpa [Cause.code] using hnone
  · obtain ⟨k, hk, ⟨rfl, hn⟩ | ⟨rfl, hready⟩ | ⟨rfl, hr⟩⟩ := check_fault_cases hc
    · exact ⟨by simp [Cause.code, hd], fun _ => ⟨i, k, hd, hk, hn⟩, nofun, nofun⟩
    · exact ⟨by simp [Cause.code, hd], nofun, fun _ => ⟨i, k, hd, hk, hready⟩, nofun⟩
    · exact ⟨by simp [Cause.code, hd], nofun, nofun, fun _ => ⟨k, misuse_directions (s := s) hd hk hr⟩⟩

/-- `t` has the registers, the contexts and the alphabet of `s`; the ports may differ. -/
structure SameBlock (s t : State) : Prop where
  status : t.status = s.status
  faultCmd : t.faultCmd = s.faultCmd
  ctxs : t.ctxs = s.ctxs
  alphabet : t.alphabet = s.alphabet

theorem SameBlock.trans (h : SameBlock s t) (h' : SameBlock t u) : SameBlock s u where
  status := h'.status.trans h.status
  faultCmd := h'.faultCmd.trans h.faultCmd
  ctxs := h'.ctxs.trans h.ctxs
  alphabet := h'.alphabet.trans h.alphabet

theorem SameBlock.faulted (h : SameBlock s t) (hf : s.faulted = true) : t.faulted = true := by
  rwa [State.faulted, h.status]

theorem hostRegister_some {n : Nat} (h : n ≤ 1) : ∃ v, hostRegister n s = some v := by
  interval_cases n <;> exact ⟨_, rfl⟩

/-- A faulted block takes any action but the reset with no effect and no output (R196). -/
theorem step_offer_faulted (hf : s.faulted = true) (ha : a ≠ .reset) (hread : ∀ n, a = .readRegister n → n ≤ 1) :
    ∃ t, step (s.offer a) = .next t ∧ SameBlock s t ∧ responseTo a t = [] := by
  cases a with
  | command w =>
    exact ⟨_, (step_command (offer_host _ _)).trans (runWord_faulted (s := { s with host := [] }) hf),
      ⟨rfl, rfl, rfl, rfl⟩, rfl⟩
  | readRegister n =>
    obtain ⟨v, hv⟩ := hostRegister_some (s := { s with host := [] }) (hread n rfl)
    have hstep : step (s.offer (.readRegister n)) = .next { s with host := [], readData := some v } := by
      simp only [step, hostRead, State.offer, hv]
    exact ⟨_, hstep, ⟨rfl, rfl, rfl, rfl⟩, rfl⟩
  | reset => exact absurd rfl ha

/-- A faulted block runs any actions but the reset to their end with no effect and no output. -/
theorem drive_faulted {acts : List HostAction} (hf : s.faulted = true) (hn : NoReset acts) (hread : ReadsExist acts) :
    ∃ t tr, drive acts s = some (t, tr) ∧ SameBlock s t ∧ output tr = [] := by
  induction acts generalizing s with
  | nil => exact ⟨s, [], rfl, ⟨rfl, rfl, rfl, rfl⟩, rfl⟩
  | cons a rest ih =>
    obtain ⟨ha, hrest⟩ := List.forall_mem_cons.mp hn
    obtain ⟨t, hstep, hsame, hresponse⟩ := step_offer_faulted hf ha fun n he => hread n (he ▸ List.mem_cons_self)
    obtain ⟨u, tr, hd, hsame', hout⟩ := ih (hsame.faulted hf) hrest fun n he => hread n (List.mem_cons_of_mem a he)
    refine ⟨u, _, drive_of_step hstep hd, hsame.trans hsame', ?_⟩
    rw [output, List.flatMap_cons, hresponse]
    exact hout

/-- Settles O14: by what each action does to a faulted block. -/
theorem faultedBlockDropsEverything : Obligations.FaultedBlockDropsEverything := by
  refine ⟨fun acts s hf hn hread => ?_, fun s rest _ => ⟨rfl, rfl⟩, fun s rest => ⟨_, rfl, blockReset_faulted _⟩⟩
  obtain ⟨t, tr, hd, hsame, hout⟩ := drive_faulted hf hn hread
  exact ⟨t, tr, hd, hsame.faulted hf, hsame.status, hsame.faultCmd, hsame.ctxs, hsame.alphabet, hout⟩

/-- Before INIT_TABLES a context command fails its checks, by READY unless its context does not exist (R192). -/
theorem check_unready (hk : contextOperand i = some k) (hf : s.faulted = false) (hready : s.ready = false) :
    ∃ c, check i s = .fault c ∧ (k < s.numCtx → c = .notReady) := by
  rcases Nat.lt_or_ge k s.numCtx with hn | hn
  · exact ⟨_, check_notReady hk hf hn hready, fun _ => rfl⟩
  · exact ⟨_, check_badContext hk hf hn, fun hlt => absurd hlt hn.not_gt⟩

/-- Settles O15: every command but INIT_TABLES names a context and fails a check, and fault entry leaves READY and the
contexts. -/
theorem commandsBeforeInitTablesFault : Obligations.CommandsBeforeInitTablesFault := by
  intro i s hf hready hi
  obtain ⟨k, hk⟩ := Option.ne_none_iff_exists'.mp (mt eq_initTables_of_contextOperand hi)
  obtain ⟨c, hc, hcause⟩ := check_unready hk hf hready
  refine ⟨_, exec_fault hc, raiseFault_faulted .., (raiseFault_ready ..).trans hready, rfl, rfl, fun j hj hlt => ?_⟩
  cases hk.symm.trans hj
  rw [raiseFault_cause, hcause hlt]
  rfl

/-- Settles O16: a command of the other direction fails the role check, which an Idle context passes. -/
theorem directionChangeNeedsFinalizer : Obligations.DirectionChangeNeedsFinalizer := by
  intro s k x hs
  have misuse {i : Instr} (hk : contextOperand i = some k) (hr : opposedRole i = some (s.ctx k).role) :
      ∃ t, exec i s = .next t ∧ t.faulted = true ∧ t.cause = 4 ∧ t.ctxs = s.ctxs :=
    ⟨_, exec_fault (check_roleMisuse hk hs hr), raiseFault_faulted .., raiseFault_cause .., rfl⟩
  refine ⟨fun hr => ?_, fun hr => ?_, fun hr => ?_⟩
  · rintro i (rfl | rfl) <;> exact misuse rfl (congrArg some hr.symm)
  · rintro i (rfl | rfl) <;> exact misuse rfl (congrArg some hr.symm)
  · rintro i (rfl | rfl | rfl | rfl) <;> exact exec_go_unfaulted (check_go rfl hs (hr ▸ opposedRole_ne_idle))

end Sys2Proof.Machine
end

section
/-! Proofs: no command gets stuck, and a missing host register is the one stop (70_reset_and_hazards.md R236, 10_state.md
R32). -/

namespace Sys2Proof.Machine

/-- A command completes whatever its checks say: dropped, as a fault, or with its effect. -/
theorem exec_total (i : Instr) (s : State) : ∃ t, exec i s = .next t := by
  cases hc : check i s with
  | drop => exact ⟨_, exec_drop hc⟩
  | fault c => exact ⟨_, exec_fault hc⟩
  | go => exact ⟨_, exec_go hc⟩

/-- A word completes whether or not it spells a command (R191). -/
theorem runWord_total (w : Word) (s : State) : ∃ t, runWord w s = .next t := by
  cases hd : decode w with
  | ok i => exact runWord_ok hd ▸ exec_total i s
  | error e =>
    cases hf : s.faulted with
    | true => exact ⟨_, runWord_faulted hf⟩
    | false => exact ⟨_, runWord_illegal hf (by simp [hd])⟩

/-- A host register read completes, or the register does not exist and the model stops (R32; log 6). -/
theorem hostRead_next_or_stop (n : Nat) (s : State) :
    (∃ t, hostRead n s = .next t) ∨ 2 ≤ n ∧ hostRead n s = .fault (.noSuchHostRegister n) := by
  rcases Nat.lt_or_ge 1 n with hn | hn
  · exact .inr ⟨hn, by simp only [hostRead, hostRegister_none hn]⟩
  · obtain ⟨v, hv⟩ := hostRegister_some (s := s) hn
    exact .inl ⟨{ s with readData := some v }, by simp only [hostRead, hv]⟩

/-- Settles O9: a step waits, runs a word, reads a host register or resets, and only the read can stop. -/
theorem everyCommandCompletes : Obligations.EveryCommandCompletes := by
  refine ⟨exec_total, fun s => ?_⟩
  cases hhost : s.host with
  | nil => exact .inl ⟨s, blockWaitsForTheHost s hhost⟩
  | cons a rest =>
    cases a with
    | command w => exact .inl (step_command hhost ▸ runWord_total w _)
    | readRegister n =>
      have hstep : step s = hostRead n { s with host := rest } := by simp only [step, hhost]
      rcases hostRead_next_or_stop n { s with host := rest } with hnext | ⟨hn, hstop⟩
      · exact .inl (hstep ▸ hnext)
      · exact .inr ⟨n, rest, rfl, hn, hstep.trans hstop⟩
    | reset => exact .inl ⟨blockReset { s with host := rest }, by simp only [step, hhost]⟩

end Sys2Proof.Machine
end
